-- ==== Sys2Proof/Word.lean ====
section
/-! DEFINITION. The two unsigned value types of the machine (rule R8): the 32-bit word and the 8-bit byte. -/

namespace Sys2Proof

/-- A word: 32 bits, unsigned; bit 0 is the least significant (R8). -/
abbrev Word := BitVec 32

/-- A byte: 8 bits, unsigned (R8); also the unit of addressing of the operand spaces (R40). -/
abbrev Byte := BitVec 8

end Sys2Proof
end

