-- ==== Sys2Proof/Config.lean ====
section
/-! DEFINITION. The implementation parameters of rule R7, and the one free value. The source fixes all parameters but `LEN_BITS` (decision
D15, left open): lengths are natural numbers and no definition below depends on their width (log entry 9). -/

namespace Sys2Proof.Config

/-- `NWORDS`: words in the Cipher State (R7, R21). -/
abbrev nWords : Nat := 16

/-- `KEY_BYTES` (R7). -/
def keyBytes : Nat := 32

/-- `NONCE_BYTES` (R7). -/
def nonceBytes : Nat := 12

/-- `BLOCK_BYTES`: keystream bytes per block (R7, R31). -/
abbrev blockBytes : Nat := 64

/-- `DROUNDS`: applications of the mixing transformation per block (R7, R123). -/
def dRounds : Nat := 10

/-- The greatest sequencer target and the greatest index of the schedule ROM (R24, R71). -/
def lastIndex : Nat := 92

/-- The free value (log entry 21): the byte a host gets that reads `OUT` at an offset while its contents are not defined (R54, R193, R206,
U1, U2). The second argument is the number of the host's moves still to come, so that no two reads of a run share an argument. -/
opaque undefinedOut (offset movesLeft : Nat) : Byte

end Sys2Proof.Config
end

