-- ==== Sys2Proof/Syntax.lean ====
section
/-! DEFINITION. The instructions: one constructor for each of the fifteen rows of spec/opcode_table.json, the host command
`STREAM` (R67) and the fourteen micro-operations (R70); and the names of what makes an encoding reserved (R80, R81). -/

namespace Sys2Proof

/-- The fifteen rows of the opcode table. The four indices of `QR` are the 4-bit fields of format Q (R69); the target of
`BDONE` and `JMP` is the 8-bit field of format T, used as it stands (R69). -/
inductive Instr where
  | stream
  | check
  | ldconst
  | ldkey
  | ldctr
  | ldnonce
  | save
  | qr (a b c d : Fin 16)
  | feedfwd
  | ser
  | xorchunk
  | ctrinc
  | bdone (t : BitVec 8)
  | jmp (t : BitVec 8)
  | endrun
  deriving DecidableEq, Repr

/-- Why a command code or a micro-operation word is reserved (R71, R80, R81, R82). -/
inductive Reserved where
  /-- A command code other than `0x01` (R80). -/
  | command
  /-- An opcode outside `0x01` to `0x0E`, the all-zero word included (R71, R81). -/
  | opcode
  /-- A non-zero bit in bits 23 to 16 (R71). -/
  | mustBeZero
  /-- Format N with a non-zero operand field (R71). -/
  | operandField
  /-- Format Q whose four indices are not pairwise different (R71, R82, R108). -/
  | equalIndices
  /-- Format T with a non-zero bit in bits 15 to 8 (R71). -/
  | targetField
  /-- Format T with a target above 92 (R71, R81). -/
  | targetAbove
  deriving DecidableEq, Repr

/-- An encoded instruction: an 8-bit code written to `CMD` (format CMD, R67) or a 32-bit micro-operation word (R68). The
schedule ROM is indexed by word and commands are written whole, so neither has a byte order (R45). -/
inductive Code where
  | command (c : BitVec 8)
  | word (w : Word)
  deriving DecidableEq, Repr

end Sys2Proof
end

