-- ==== Sys2Proof/WellFormed.lean ====
section
/-! DEFINITION. Which instructions have an encoding: the constraints of rule R71 on operands (format Q: four pairwise
different indices, R82; format T: a target of at most 92, R81). -/

namespace Sys2Proof

/-- The four indices of a quarter-round are pairwise different (R82, R103, R108). -/
def pairwiseDifferent (a b c d : Fin 16) : Bool :=
  a ≠ b && a ≠ c && a ≠ d && b ≠ c && b ≠ d && c ≠ d

/-- A sequencer target is the index of a ROM word (R71, R164). -/
def targetInRom (t : BitVec 8) : Bool := t.toNat ≤ Config.lastIndex

/-- What makes an instruction's encoding reserved, if anything does. -/
def Instr.illFormed : Instr → Option Reserved
  | .qr a b c d => if pairwiseDifferent a b c d then none else some .equalIndices
  | .bdone t => if targetInRom t then none else some .targetAbove
  | .jmp t => if targetInRom t then none else some .targetAbove
  | .stream => none
  | .check => none
  | .ldconst => none
  | .ldkey => none
  | .ldctr => none
  | .ldnonce => none
  | .save => none
  | .feedfwd => none
  | .ser => none
  | .xorchunk => none
  | .ctrinc => none
  | .endrun => none

/-- The instruction is well-formed: its encoding is not reserved. -/
def Instr.wf (i : Instr) : Bool := i.illFormed.isNone

end Sys2Proof
end

