-- ==== Sys2Proof/Decode.lean ====
section
/-! DEFINITION. The decoder of rules R71 and R80, total on command codes and on 32-bit words, which rejects a reserved
encoding by name; then the encoder of rules R67, R68, R70 and R72. -/

namespace Sys2Proof

/-- A format-N word is the instruction `i` unless its operand field is non-zero (R71). -/
def decodeN (i : Instr) (w : Word) : Except Reserved Instr :=
  if w.extractLsb' 0 16 = 0#16 then .ok i else .error .operandField

/-- Format Q (R68, R69, R71): the four 4-bit indices `a = w[15:12]`, `b = w[11:8]`, `c = w[7:4]`, `d = w[3:0]`. -/
def decodeQ (w : Word) : Except Reserved Instr :=
  let a := (w.extractLsb' 12 4).toFin
  let b := (w.extractLsb' 8 4).toFin
  let c := (w.extractLsb' 4 4).toFin
  let d := (w.extractLsb' 0 4).toFin
  if pairwiseDifferent a b c d then .ok (.qr a b c d) else .error .equalIndices

/-- Format T (R68, R69, R71): the target `t = w[7:0]`, with bits 15 to 8 zero and `t` at most 92. -/
def decodeT (mk : BitVec 8 → Instr) (w : Word) : Except Reserved Instr :=
  let t := w.extractLsb' 0 8
  if w.extractLsb' 8 8 = 0#8 then
    if targetInRom t then .ok (mk t) else .error .targetAbove
  else .error .targetField

/-- The micro-operation decoder, total on 32-bit words (R71): the opcode first, then bits 23 to 16, then the operand field
by format. -/
def decodeWord (w : Word) : Except Reserved Instr :=
  let op := w.extractLsb' 24 8
  if op = 0x00#8 ∨ 0x0E#8 < op then .error .opcode
  else if w.extractLsb' 16 8 ≠ 0#8 then .error .mustBeZero
  else if op = 0x01#8 then decodeN .check w
  else if op = 0x02#8 then decodeN .ldconst w
  else if op = 0x03#8 then decodeN .ldkey w
  else if op = 0x04#8 then decodeN .ldctr w
  else if op = 0x05#8 then decodeN .ldnonce w
  else if op = 0x06#8 then decodeN .save w
  else if op = 0x07#8 then decodeQ w
  else if op = 0x08#8 then decodeN .feedfwd w
  else if op = 0x09#8 then decodeN .ser w
  else if op = 0x0A#8 then decodeN .xorchunk w
  else if op = 0x0B#8 then decodeN .ctrinc w
  else if op = 0x0C#8 then decodeT .bdone w
  else if op = 0x0D#8 then decodeT .jmp w
  else decodeN .endrun w

/-- The command decoder, total on 8-bit codes (R67, R80). -/
def decodeCommand (c : BitVec 8) : Except Reserved Instr :=
  if c = 0x01#8 then .ok .stream else .error .command

/-- Decode an encoded instruction of either kind. -/
def decode : Code → Except Reserved Instr
  | .command c => decodeCommand c
  | .word w => decodeWord w

/-- The micro-operation word with opcode `op`, bits 23 to 16 zero and operand field `v` (R68). -/
def opWord (op v : Nat) : Code := .word (BitVec.ofNat 32 (op * 16777216 + v))

/-- The code of each instruction (R67, R70); format Q carries its indices as `a * 4096 + b * 256 + c * 16 + d` (R72). -/
def encode : Instr → Code
  | .stream => .command 0x01#8
  | .check => opWord 0x01 0
  | .ldconst => opWord 0x02 0
  | .ldkey => opWord 0x03 0
  | .ldctr => opWord 0x04 0
  | .ldnonce => opWord 0x05 0
  | .save => opWord 0x06 0
  | .qr a b c d => opWord 0x07 (a.val * 4096 + b.val * 256 + c.val * 16 + d.val)
  | .feedfwd => opWord 0x08 0
  | .ser => opWord 0x09 0
  | .xorchunk => opWord 0x0A 0
  | .ctrinc => opWord 0x0B 0
  | .bdone t => opWord 0x0C t.toNat
  | .jmp t => opWord 0x0D t.toNat
  | .endrun => opWord 0x0E 0

/-- What the decoder reads from an instruction of `nbits` bits with value `w`, numbered as spec/opcode_table.json numbers
them: 8 bits are a command code, 32 bits a micro-operation word, and the spec has no other width (R67, R68, R83). -/
def decodeTableWord (nbits w : Nat) : Option Instr :=
  if nbits = 8 ∧ w < 2 ^ 8 then (decode (.command (BitVec.ofNat 8 w))).toOption
  else if nbits = 32 ∧ w < 2 ^ 32 then (decode (.word (BitVec.ofNat 32 w))).toOption
  else none

end Sys2Proof
end

