-- ==== Sys2Proof/Machine/State.lean ====
section
/-! DEFINITION. The state of the machine as plain data: every element of the table of rule R20, the four operand spaces of
rule R40, and two fields of the model's own (the host's moves still to come, and a program in place of the schedule ROM).
Also the named reasons a step can stop, and the state after reset (R37, R200). -/

namespace Sys2Proof.Machine

/-- `STATUS` (R26, R27). All four values of its two bits have a name. -/
inductive Status where
  /-- 0: after reset, no command has been taken. -/
  | idle
  /-- 1: a `STREAM` command is running; the CORE takes steps. -/
  | busy
  /-- 2: the last `STREAM` completed. -/
  | done
  /-- 3: the last `STREAM` met a Precondition Violation; terminal until reset. -/
  | halt
  deriving DecidableEq, Repr

/-- The four operand spaces (R40). -/
inductive Space where
  | key
  | nonce
  | inp
  | out
  deriving DecidableEq, Repr

/-- How the integrator maps the spaces `IN` and `OUT` onto memory (R52, R209, D13). -/
inductive Placement where
  /-- No byte of `OUT` shares a location with a byte of `IN` (R52): the two spaces of the spec. -/
  | apart
  /-- `IN` and `OUT` are the same bytes at the same base: `OUT[p]` is `IN[p]` (R52, U11). -/
  | same
  /-- Some byte of `OUT` shares a location with a byte of `IN` at another offset: outside the spec, and refused (R52, D13, U10). -/
  | shifted
  deriving DecidableEq, Repr

/-- The locations that can hold no value (R20, R33, R34). -/
inductive Loc where
  | x (i : Fin 16)
  | s (i : Fin 16)
  | ks (k : Fin 64)
  | ctr
  | pos
  | ctr0
  | len (sp : Space)
  deriving DecidableEq, Repr

/-- The eight host-visible registers of the table of rule R26. -/
inductive HostReg where
  | cmd
  | status
  | fault
  | ctr0
  | keyLen
  | nonceLen
  | inLen
  | outLen
  deriving DecidableEq, Repr

/-- What the host can do to the CORE (R193), and whose turn it is. A host move is an input of the machine. -/
inductive HostMove where
  /-- The host does nothing and the CORE takes its turn. -/
  | pass
  /-- Write `CTR0`. -/
  | writeCtr0 (v : Word)
  /-- Write the length register of a space. -/
  | writeLen (sp : Space) (n : Nat)
  /-- Fill one byte of a space the host owns (R42). -/
  | writeByte (sp : Space) (a : Nat) (b : Byte)
  /-- Write a code to `CMD`. The code exists at the write only: `CMD` is write-only and nothing holds it afterwards (R26, R80). -/
  | writeCmd (c : BitVec 8)
  /-- Read a register. -/
  | readReg (r : HostReg)
  /-- Read a byte of `OUT`. -/
  | readOut (a : Nat)
  /-- Reset the CORE (R200). -/
  | reset
  deriving DecidableEq, Repr

/-- A step stops with a fault: the machine of the spec has no such behaviour. -/
inductive Fault where
  /-- An access to an offset that the space does not have: an address is below the space's length (R40, R48).
  Raised by `LDKEY`, `LDNONCE` and `XORCHUNK` in a run whose lengths `CHECK` has not passed, which the schedule ROM never makes,
  and by a host read of `OUT` at or past `OUT_LEN`.
  DEDUCED, log entry 5. Safe: the model stops. -/
  | outsideSpace (sp : Space) (a : Nat)
  deriving DecidableEq, Repr

/-- A step is refused by name. -/
inductive Refusal where
  /-- The instruction of this mnemonic has no meaning yet: no arm of the dispatch raises it. Safe. -/
  | notModelled (mnemonic : String)
  /-- A read of a location that holds no value: "the model stops and reports which location was read" and "must not substitute zero or
  any other value" (R33; R12, R34, R194). Raised by every micro-operation that reads one, and by `STREAM` when an operand register holds
  none. Safe: the spec's own refusal. -/
  | noValue (l : Loc)
  /-- A reserved micro-operation word, or an instruction whose operands make its word reserved (R81, R108, R194): raised by
  the CORE's fetch and by `QR`, `BDONE` and `JMP`. Safe: the spec's own refusal. -/
  | reserved (why : Reserved)
  /-- `SEQ` holds a value that is no index of the ROM (R24): raised by the CORE's fetch. Safe: the spec's own refusal. -/
  | seqOutside (q : BitVec 7)
  /-- The host has no such move at this point: a write of an operand register or of a byte of a space while `BUSY`, where "the model gives
  the host no such move" (R205, R206, D17, U13), and in `HALT`, where the table of R193 allows none (DEDUCED, log entry 7). Raised by a host
  move. Safe. -/
  | noSuchMove (m : HostMove)
  /-- `IN` and `OUT` overlap at a shifted offset (R52, R209, D13, U10): raised by a `STREAM` that would start a run, by `XORCHUNK`, and by
  a host fill of `IN` or `OUT`. Safe: the spec's own refusal. -/
  | shiftedOverlap
  /-- `CMD` is write-only (R26): raised by a host read of it. Safe. -/
  | writeOnly
  deriving DecidableEq, Repr

/-- The bytes of one operand space: the listed cells, by rising address. -/
abbrev Memory := List Host.Cell

/-- What an address that is not listed reads as. DESIGN CHOICE (log entry 4), unsafe: the spec says the contents of the
spaces are unspecified after reset and belong to the host (R37). -/
def unlistedByte : Byte := 0#8

/-- The listed addresses strictly rise from `lo` on, and no entry equals what an unlisted address reads as. -/
def Memory.wfFrom (lo : Nat) : Memory → Bool
  | [] => true
  | (a, b) :: rest => lo ≤ a && b ≠ unlistedByte && Memory.wfFrom (a + 1) rest

/-- The canonical form of a memory. -/
def Memory.wf (m : Memory) : Bool := Memory.wfFrom 0 m

/-- The whole state. A location whose value is `none` holds no value: that is the spec's own state (R12, R33), and it is its
reset value (R37) and its value after the end of a run (R157, R184). -/
structure State where
  /-- The Cipher State `X[0..16]` (R21). -/
  x : Vector (Option Word) 16
  /-- `S[0..16]`, the retained copy of the initial state (R30). -/
  sv : Vector (Option Word) 16
  /-- The Keystream Block `KS[0..64]` (R31). -/
  ks : Vector (Option Byte) 64
  /-- `CTR`, the Block Counter (R32). -/
  ctr : Option Word
  /-- `POS`, the number of input bytes processed (R32); its width is the open parameter `LEN_BITS` (D15). -/
  pos : Option Nat
  /-- `SEQ`, the sequencer index, the program counter (R24). -/
  seq : BitVec 7
  /-- `STATUS` (R27). -/
  status : Status
  /-- `FAULT` (R28): bit 0 `KEYLEN`, bit 1 `NONCELEN`, bit 2 `BUFLEN`. -/
  fault : BitVec 3
  /-- `CTR0`, the operand: starting block counter (R29). -/
  ctr0 : Option Word
  /-- `KEY_LEN` (R26). -/
  keyLen : Option Nat
  /-- `NONCE_LEN` (R26). -/
  nonceLen : Option Nat
  /-- `IN_LEN` (R26). -/
  inLen : Option Nat
  /-- `OUT_LEN` (R26). -/
  outLen : Option Nat
  /-- The space `KEY` (R40). -/
  key : Memory
  /-- The space `NONCE` (R40). -/
  nonce : Memory
  /-- The space `IN` (R40). -/
  inp : Memory
  /-- The space `OUT` (R40). Where `IN` and `OUT` are the same bytes, `inp` holds them and this field is not used. -/
  out : Memory
  /-- How the integrator maps `IN` and `OUT` (R52). Nothing in the machine writes it (DESIGN CHOICE, log entry 18). -/
  placement : Placement
  /-- The model's own (DESIGN CHOICE, log entry 1): the host's moves still to come, the next first (R193). Empty: the host does nothing
  more. -/
  host : List HostMove
  /-- The model's own (DESIGN CHOICE, log entry 2): a program in place of the schedule ROM (U9, R75). Nothing in the machine writes
  it, and a claim about the hardware takes `none`, the ROM. -/
  testProgram : Option (List Word)
  deriving DecidableEq, Repr

/-- The machine right after reset (R37, R200). The spaces hold what the host left there; before anything is filled nothing is
listed. -/
def State.reset : State where
  x := Vector.replicate 16 none
  sv := Vector.replicate 16 none
  ks := Vector.replicate 64 none
  ctr := none
  pos := none
  seq := 0#7
  status := .idle
  fault := 0#3
  ctr0 := none
  keyLen := none
  nonceLen := none
  inLen := none
  outLen := none
  key := []
  nonce := []
  inp := []
  out := []
  placement := .apart
  host := []
  testProgram := none

end Sys2Proof.Machine
end

