-- ==== Sys2Proof/Machine/WordOps.lean ====
section
/-! DEFINITION. The word operators and the byte-order functions of rules R10, R11 and R100 to R102. -/

namespace Sys2Proof.Machine

/-- Addition modulo 2^32; the carry is dropped (R10, R100). -/
def add32 (a b : Word) : Word := a + b

/-- Bitwise exclusive-or of two words (R10, R101). -/
def xor32 (a b : Word) : Word := a ^^^ b

/-- Rotation left within 32 bits, for `n` in 1..32 (R10, R102). -/
def rotl32 (v : Word) (n : Nat) : Word := (v <<< n) ||| (v >>> (32 - n))

/-- A word from four bytes, the first in the low bits (R11). -/
def le32 (b0 b1 b2 b3 : Byte) : Word :=
  BitVec.ofNat 32 (b0.toNat + 2 ^ 8 * b1.toNat + 2 ^ 16 * b2.toNat + 2 ^ 24 * b3.toNat)

/-- `byte_k` of a word: bits `8k+7` to `8k` (R11). -/
def byteOf (k : Nat) (w : Word) : Byte := w.extractLsb' (8 * k) 8

/-- Exclusive-or of two bytes (R101, R154). -/
def xor8 (a b : Byte) : Byte := a ^^^ b

end Sys2Proof.Machine
end

