-- ==== Sys2Proof/Machine/Ops.lean ====
section
/-! DEFINITION. The named operations over registers and operand spaces; the one exception's entry (R184), the end of a run
(R157), the start of a run (R150) and the reset (R200), each one shared operation; and what the host may do (R193). The
machine has no return from an exception (R186): reset is the way out. -/

namespace Sys2Proof.Machine

/-- The outcome of one step. -/
abbrev StepOutcome := Host.Outcome State Fault Refusal

/-- What a read answers: a value, or why the step stops. -/
abbrev Read (α : Type) := Host.Outcome α Fault Refusal

/-- Go on with the value of a read; a stop stays. -/
def andThen {α β : Type} (o : Read α) (f : α → Read β) : Read β :=
  match o with
  | .next a => f a
  | .fault r => .fault r
  | .refused r => .refused r

/-! ## Locations that can hold no value (R33) -/

/-- Read a location. A location that holds `none` is refused by its name: "the model stops and reports which location was read", and no
value may be put in its place (R33; R12, R34, R194). -/
def valueOf {α : Type} (l : Loc) (v : Option α) : Read α :=
  match v with
  | some a => .next a
  | none => .refused (.noValue l)

/-- The first of a file's locations that holds no value: the one a refusal names (DESIGN CHOICE, log entry 14). -/
def firstNone {α : Type} {n : Nat} (v : Vector (Option α) n) : Option (Fin n) :=
  (List.finRange n).find? fun i => v[i].isNone

/-- Where some location of a file holds no value, there is a first one. -/
theorem firstNone_isSome {α : Type} {n : Nat} {v : Vector (Option α) n}
    (h : ¬ ∀ i : Fin n, v[i].isSome = true) : (firstNone v).isSome = true := by
  obtain ⟨i, hi⟩ := not_forall.mp h
  refine List.find?_isSome.mpr ⟨i, List.mem_finRange i, ?_⟩
  cases hv : v[i] <;> simp_all

/-- Read a whole file of locations in index order: all its values, or, where one holds `none`, the stop of R33 and R194 with the name of the
first such location. -/
def readAll {α : Type} {n : Nat} (loc : Fin n → Loc) (v : Vector (Option α) n) : Read (Vector α n) :=
  if h : ∀ i : Fin n, v[i].isSome = true then .next (Vector.ofFn fun i => v[i].get (h i))
  else .refused (.noValue (loc ((firstNone v).get (firstNone_isSome h))))

/-! ## The Cipher State, the retained copy and the Keystream Block -/

/-- `X[i]` (R12). -/
def readX (i : Fin 16) (s : State) : Read Word := valueOf (.x i) s.x[i]

/-- `X[i] <- w` (R12). -/
def writeX (i : Fin 16) (w : Word) (s : State) : State := { s with x := s.x.set i.val (some w) }

/-- All sixteen words of `X`. -/
def readAllX (s : State) : Read (Vector Word 16) := readAll Loc.x s.x

/-- All sixteen words of `S`. -/
def readAllS (s : State) : Read (Vector Word 16) := readAll Loc.s s.sv

/-- `KS[k]` (R12). -/
def readKs (k : Fin 64) (s : State) : Read Byte := valueOf (.ks k) s.ks[k]

/-- `SEQ <- SEQ + 1` (R24). `SEQ` has seven bits; from every index of the ROM but the last, the `END`, the sum is an index. -/
def advance (s : State) : State := { s with seq := s.seq + 1#7 }

/-! ## The operand spaces (R40) -/

/-- The byte at an address of a memory. -/
def memRead : Memory → Nat → Byte
  | [], _ => unlistedByte
  | (k, v) :: rest, a => if k = a then v else memRead rest a

/-- Remove an address from the listed ones. -/
def memErase (a : Nat) : Memory → Memory
  | [] => []
  | (k, v) :: rest => if k = a then memErase a rest else (k, v) :: memErase a rest

/-- List a byte at an address, in its place. -/
def memInsert (a : Nat) (b : Byte) : Memory → Memory
  | [] => [(a, b)]
  | (k, v) :: rest =>
    if a < k then (a, b) :: (k, v) :: rest
    else if a = k then (a, b) :: rest
    else (k, v) :: memInsert a b rest

/-- Put a byte at an address of a memory and keep the canonical form: no entry for the byte that an unlisted address reads as. -/
def memWrite (a : Nat) (b : Byte) (m : Memory) : Memory :=
  if b = unlistedByte then memErase a m else memInsert a b m

/-- A memory of the state, by the space it is named after. -/
def heldMem (sp : Space) (s : State) : Memory :=
  match sp with
  | .key => s.key
  | .nonce => s.nonce
  | .inp => s.inp
  | .out => s.out

/-- Replace a memory of the state. -/
def setMem (sp : Space) (m : Memory) (s : State) : State :=
  match sp with
  | .key => { s with key := m }
  | .nonce => { s with nonce := m }
  | .inp => { s with inp := m }
  | .out => { s with out := m }

/-- Which memory holds the bytes of a space: its own, but for `OUT` mapped onto the bytes of `IN` (R52). -/
def home (sp : Space) (s : State) : Space := if sp = .out ∧ s.placement = .same then .inp else sp

/-- The bytes of a space. -/
def spaceMem (sp : Space) (s : State) : Memory := heldMem (home sp s) s

/-- The byte at an offset of a space, whether or not the offset is below the space's length. -/
def byteAt (sp : Space) (a : Nat) (s : State) : Byte := memRead (spaceMem sp s) a

/-- The length register of a space (R26, R40). -/
def spaceLen (sp : Space) (s : State) : Option Nat :=
  match sp with
  | .key => s.keyLen
  | .nonce => s.nonceLen
  | .inp => s.inLen
  | .out => s.outLen

/-- Store a byte of a space. -/
def setByte (sp : Space) (a : Nat) (b : Byte) (s : State) : State :=
  setMem (home sp s) (memWrite a b (spaceMem sp s)) s

/-- A mapping in which `OUT` overlaps `IN` at a shifted offset is refused (R52, D13). -/
def placed (s : State) : Read Unit := if s.placement = .shifted then .refused .shiftedOverlap else .next ()

/-- Write a length register. -/
def setLen (sp : Space) (n : Nat) (s : State) : State :=
  match sp with
  | .key => { s with keyLen := some n }
  | .nonce => { s with nonceLen := some n }
  | .inp => { s with inLen := some n }
  | .out => { s with outLen := some n }

/-- An address of a space is below the space's length (R40); an access anywhere else faults (DEDUCED, log entry 5). An access reads bytes
and no length register (the Reads lines of R91, R93, R154), so one made while the length register holds `none` is no read of `none` and
meets no bound (DEDUCED, log entry 20). -/
def inSpace (sp : Space) (a : Nat) (s : State) : Read Unit :=
  match spaceLen sp s with
  | some n => if a < n then .next () else .fault (.outsideSpace sp a)
  | none => .next ()

/-- `MemRead(sp, a, 1)` (R13). -/
def readSpace (sp : Space) (a : Nat) (s : State) : Read Byte :=
  andThen (inSpace sp a s) fun _ => .next (byteAt sp a s)

/-- `MemWrite(OUT, a, 1, b)` (R13); `OUT` is the one space the CORE writes (R40). -/
def writeOut (a : Nat) (b : Byte) (s : State) : StepOutcome :=
  andThen (inSpace .out a s) fun _ => .next (setByte .out a b s)

/-! ## Start and end of a run, the exception, reset -/

/-- `X`, `S`, `KS`, `CTR` and `POS` hold no value (R33, R157, R184). -/
def clearInternal (s : State) : State :=
  { s with
    x := Vector.replicate 16 none
    sv := Vector.replicate 16 none
    ks := Vector.replicate 64 none
    ctr := none
    pos := none }

/-- `raise PreconditionViolation(c)`, the machine's one exception (R14, R184): `FAULT` records the causes, `STATUS` becomes
`HALT`, the internal locations hold no value and `SEQ` keeps the index of the `CHECK`. There is no handler and nothing is
saved. -/
def raiseViolation (c : BitVec 3) (s : State) : State :=
  { clearInternal s with fault := c, status := .halt }

/-- The end of a completed run (R157): the internal locations hold no value, `STATUS` becomes `DONE`, `SEQ` is unchanged. -/
def finishRun (s : State) : State := { clearInternal s with status := .done }

/-- The start of a run with the starting counter `c` (R150). -/
def startRun (c : Word) (s : State) : State :=
  { s with ctr := some c, pos := some 0, seq := 0#7, fault := 0#3, status := .busy }

/-- The host's reset (R200): every element of state takes its reset value; the four operand spaces and their mapping are not
touched, and neither are the model's own two fields (DESIGN CHOICE, log entry 17). -/
def resetCore (s : State) : State :=
  { State.reset with
    key := s.key
    nonce := s.nonce
    inp := s.inp
    out := s.out
    placement := s.placement
    host := s.host
    testProgram := s.testProgram }

/-! ## The host (R193) -/

/-- The value of each `STATUS` (R26). -/
def statusCode : Status → BitVec 2
  | .idle => 0#2
  | .busy => 1#2
  | .done => 2#2
  | .halt => 3#2

/-- The number of each host register (R26). -/
def hostRegNumber : HostReg → Nat
  | .cmd => 0
  | .status => 1
  | .fault => 2
  | .ctr0 => 3
  | .keyLen => 4
  | .nonceLen => 5
  | .inLen => 6
  | .outLen => 7

/-- What a host read of a register gives, as a number (R26): `CMD` is write-only; an operand register reads as it was written, and one that
nothing has written gives no value. A host read is no step of the CORE (R5), so R33 does not stop it (DEDUCED, log entry 3). -/
def hostReadReg (r : HostReg) (s : State) : Read (Option Nat) :=
  match r with
  | .cmd => .refused .writeOnly
  | .status => .next (some (statusCode s.status).toNat)
  | .fault => .next (some s.fault.toNat)
  | .ctr0 => .next (s.ctr0.map fun v => v.toNat)
  | .keyLen => .next s.keyLen
  | .nonceLen => .next s.nonceLen
  | .inLen => .next s.inLen
  | .outLen => .next s.outLen

/-- The host may write operands and fill spaces in `IDLE` and in `DONE` only (R193); "the model gives the host no such move" during a run
(R205, R206, D17, U13). -/
def hostMayWrite (s : State) : Bool := s.status = .idle || s.status = .done

/-- What a host read of a byte of `OUT` gives: at `DONE` the byte; in any other `STATUS` the contents are not defined for the host and it
gets an undefined byte, a free value (R54, R193, R206, U1, U2; DESIGN CHOICE, log entry 21). -/
def hostReadOut (a : Nat) (s : State) : Read Byte :=
  andThen (readSpace .out a s) fun b => .next (if s.status = .done then b else Config.undefinedOut a s.host.length)

end Sys2Proof.Machine
end

