-- ==== Sys2Proof/Machine/BlockTransform.lean ====
section
/-! DEFINITION. The unit chacha20_block_transform: `SAVE` and `FEEDFWD` (rules R120 and R124). -/

namespace Sys2Proof.Machine

/-- Word-by-word addition modulo 2^32 (R124, R130). -/
def addWords (u v : Vector Word 16) : Vector Word 16 := Vector.ofFn fun i => add32 u[i] v[i]

/-- `SAVE` (R120): all sixteen words of `X` into `S`. -/
def execSave (s : State) : StepOutcome :=
  andThen (readAllX s) fun w => .next (advance { s with sv := w.map some })

/-- `FEEDFWD` (R124): `X[i] <- add32(X[i], S[i])` for all sixteen words. -/
def execFeedfwd (s : State) : StepOutcome :=
  andThen (readAllX s) fun w =>
  andThen (readAllS s) fun i =>
  .next (advance { s with x := (addWords w i).map some })

end Sys2Proof.Machine
end

