-- ==== Sys2Proof/Machine/QuarterRound.lean ====
section
/-! DEFINITION. The unit chacha20_quarter_round: the pure function of rule R104, the twelve assignments of rule R103 as they
stand, and `QR`. -/

namespace Sys2Proof.Machine

/-- `qr_fn` (R104): the four words after a quarter-round, in the order `a`, `b`, `c`, `d`. -/
def qrFn (a0 b0 c0 d0 : Word) : Word × Word × Word × Word :=
  let a1 := add32 a0 b0
  let d1 := xor32 d0 a1
  let d2 := rotl32 d1 16
  let c1 := add32 c0 d2
  let b1 := xor32 b0 c1
  let b2 := rotl32 b1 12
  let a2 := add32 a1 b2
  let d3 := xor32 d2 a2
  let d4 := rotl32 d3 8
  let c2 := add32 c1 d4
  let b3 := xor32 b2 c2
  let b4 := rotl32 b3 7
  (a2, b4, c2, d4)

/-- `qr_fn` on the words at four indices of a sequence of sixteen words (R104, R130). -/
def qrAt (v : Vector Word 16) (a b c d : Fin 16) : Vector Word 16 :=
  let r := qrFn v[a] v[b] v[c] v[d]
  (((v.set a.val r.1).set b.val r.2.1).set c.val r.2.2.1).set d.val r.2.2.2

/-- `X[i] <- add32(X[i], X[j])` on a sequence of words (R103). -/
def addInto (i j : Fin 16) (v : Vector Word 16) : Vector Word 16 := v.set i.val (add32 v[i] v[j])

/-- `X[i] <- xor32(X[i], X[j])` on a sequence of words (R103). -/
def xorInto (i j : Fin 16) (v : Vector Word 16) : Vector Word 16 := v.set i.val (xor32 v[i] v[j])

/-- `X[i] <- rotl32(X[i], n)` on a sequence of words (R103). -/
def rotInto (i : Fin 16) (n : Nat) (v : Vector Word 16) : Vector Word 16 := v.set i.val (rotl32 v[i] n)

/-- The twelve assignments of rule R103, in strict order (R105), each reading what the earlier ones left. -/
def qrInPlace (a b c d : Fin 16) (v : Vector Word 16) : Vector Word 16 :=
  let v := rotInto d 16 (xorInto d a (addInto a b v))
  let v := rotInto b 12 (xorInto b c (addInto c d v))
  let v := rotInto d 8 (xorInto d a (addInto a b v))
  rotInto b 7 (xorInto b c (addInto c d v))

/-- `QR a,b,c,d` (R103, R104): the four words at the four indices, read before any is written. Two equal indices have no meaning
(R82, R108; DEDUCED, log entry 13). -/
def execQr (a b c d : Fin 16) (s : State) : StepOutcome :=
  if pairwiseDifferent a b c d then
    andThen (readX a s) fun wa =>
    andThen (readX b s) fun wb =>
    andThen (readX c s) fun wc =>
    andThen (readX d s) fun wd =>
    let r := qrFn wa wb wc wd
    .next (advance (writeX d r.2.2.2 (writeX c r.2.2.1 (writeX b r.2.1 (writeX a r.1 s)))))
  else .refused (.reserved .equalIndices)

end Sys2Proof.Machine
end

