-- ==== Sys2Proof/Machine/Serializer.lean ====
section
/-! DEFINITION. The unit chacha20_serializer: `SER` and its pure function (rules R140 and R141). -/

namespace Sys2Proof.Machine

/-- `ser_fn` (R141): byte `4i + k` is `byte_k` of word `i`. -/
def serFn (f : Vector Word 16) : Vector Byte 64 :=
  Vector.ofFn fun p => byteOf (p.val % 4) f[p.val / 4]

/-- `SER` (R140): the sixteen words of `X` into the sixty-four bytes of `KS`, little-endian. -/
def execSer (s : State) : StepOutcome :=
  andThen (readAllX s) fun w => .next (advance { s with ks := (serFn w).map some })

end Sys2Proof.Machine
end

