-- ==== Sys2Proof/Machine/Operands.lean ====
section
/-! DEFINITION. The operand forms: the fixed constant words (R90), the little-endian words of `KEY` and `NONCE` at fixed offsets
(R62, R63, R91, R93), the state indices of format Q, the absolute sequencer target of format T (R69), and the one addressing
mode, base `POS` plus offset (R154, R165). -/

namespace Sys2Proof.Machine

/-- The four constant words `C0` to `C3` (R7, R90). The source does not give their values; the spec supplies them from general
knowledge (log entry 8). -/
def constWord (i : Fin 4) : Word :=
  match i with
  | 0 => 0x61707865#32
  | 1 => 0x3320646E#32
  | 2 => 0x79622D32#32
  | 3 => 0x6B206574#32

/-- `le32` of the four bytes of a space from offset `a` on, read in ascending order (R11, R13, R91). -/
def readWordLe (sp : Space) (a : Nat) (s : State) : Read Word :=
  andThen (readSpace sp a s) fun b0 =>
  andThen (readSpace sp (a + 1) s) fun b1 =>
  andThen (readSpace sp (a + 2) s) fun b2 =>
  andThen (readSpace sp (a + 3) s) fun b3 =>
  .next (le32 b0 b1 b2 b3)

/-- Load words of a space into `X`, one for each pair of an offset and an index, in order. -/
def loadWords (sp : Space) : List (Nat × Fin 16) → State → StepOutcome
  | [], s => .next s
  | (a, i) :: rest, s => andThen (readWordLe sp a s) fun w => loadWords sp rest (writeX i w s)

/-- Where the eight key words lie in `KEY` and in `X` (R22, R62). -/
def keyLayout : List (Nat × Fin 16) :=
  [(0, 4), (4, 5), (8, 6), (12, 7), (16, 8), (20, 9), (24, 10), (28, 11)]

/-- Where the three nonce words lie in `NONCE` and in `X` (R22, R63). -/
def nonceLayout : List (Nat × Fin 16) := [(0, 13), (4, 14), (8, 15)]

/-- `SEQ <- t` for the target of a format-T word, used as it stands (R69). A target of at most 92 fits the seven bits. -/
def goTo (t : BitVec 8) (s : State) : State := { s with seq := t.setWidth 7 }

/-- The length of the chunk at `POS` (R66, R154): `min(64, IN_LEN - POS)`, over the natural numbers: 0 where `POS` is past
`IN_LEN`, which no run reaches (DESIGN CHOICE, log entry 11). -/
def chunkLen (inLen pos : Nat) : Nat := min Config.blockBytes (inLen - pos)

/-- The offsets `k` in 0..m of a chunk, ascending (R55, R154). -/
def chunkOffsets (m : Nat) : List (Fin 64) := (List.finRange 64).take m

/-- One byte of a chunk (R154): `OUT[pos + k] <- IN[pos + k] xor KS[k]`. -/
def xorByte (pos : Nat) (k : Fin 64) (s : State) : StepOutcome :=
  andThen (readSpace .inp (pos + k.val) s) fun b =>
  andThen (readKs k s) fun z =>
  writeOut (pos + k.val) (xor8 b z) s

/-- The bytes of a chunk, in the order of the offsets. -/
def xorBytes (pos : Nat) : List (Fin 64) → State → StepOutcome
  | [], s => .next s
  | k :: rest, s => andThen (xorByte pos k s) fun t => xorBytes pos rest t

end Sys2Proof.Machine
end

