-- ==== Sys2Proof/Machine/StateInit.lean ====
section
/-! DEFINITION. The unit chacha20_state_init: `LDCONST`, `LDKEY`, `LDCTR`, `LDNONCE` (rules R90 to R93). -/

namespace Sys2Proof.Machine

/-- `LDCONST` (R90): the four constant words into `X[0..4]`. -/
def execLdconst (s : State) : StepOutcome :=
  .next (advance
    (writeX 3 (constWord 3) (writeX 2 (constWord 2) (writeX 1 (constWord 1) (writeX 0 (constWord 0) s)))))

/-- `LDKEY` (R91): the eight little-endian words of `KEY[0..32]` into `X[4..12]`. -/
def execLdkey (s : State) : StepOutcome :=
  andThen (loadWords .key keyLayout s) fun t => .next (advance t)

/-- `LDCTR` (R92): the Block Counter into `X[12]`. -/
def execLdctr (s : State) : StepOutcome :=
  andThen (valueOf .ctr s.ctr) fun c => .next (advance (writeX 12 c s))

/-- `LDNONCE` (R93): the three little-endian words of `NONCE[0..12]` into `X[13..16]`. -/
def execLdnonce (s : State) : StepOutcome :=
  andThen (loadWords .nonce nonceLayout s) fun t => .next (advance t)

end Sys2Proof.Machine
end

