-- ==== Sys2Proof/Machine/Flags.lean ====
section
/-! DEFINITION. The machine has no flags and no condition codes (R25). The only recorded conditions are the three cause bits of
`FAULT` (R28, R181), which `CHECK` computes all at once. -/

namespace Sys2Proof.Machine

/-- The cause bits of a set of lengths (R28, R152, R181): bit 0 for `KEY_LEN`, bit 1 for `NONCE_LEN`, bit 2 for unequal buffer
lengths. Every condition that holds is recorded (R187). -/
def violationCauses (keyLen nonceLen inLen outLen : Nat) : BitVec 3 :=
  (if keyLen ≠ Config.keyBytes then 1#3 else 0#3)
    ||| (if nonceLen ≠ Config.nonceBytes then 2#3 else 0#3)
    ||| (if inLen ≠ outLen then 4#3 else 0#3)

end Sys2Proof.Machine
end

