-- ==== Sys2Proof/Machine/StreamDriver.lean ====
section
/-! DEFINITION. The unit chacha20_stream_xor_driver: the host command `STREAM` and `CHECK`, `BDONE`, `XORCHUNK`, `CTRINC`, `JMP`,
`END` (rules R150 and R152 to R157). -/

namespace Sys2Proof.Machine

/-- `STREAM` (R150): accepted in `IDLE` and `DONE` when none of the five operand registers is `none` (R34) and the spaces do not overlap
at a shifted offset (R52; refused after the five registers have been read, DESIGN CHOICE, log entry 18); in `BUSY` and `HALT` the write changes nothing (R80). -/
def execStream (s : State) : StepOutcome :=
  if s.status = .busy ∨ s.status = .halt then .next s
  else
    andThen (valueOf .ctr0 s.ctr0) fun c =>
    andThen (valueOf (.len .key) s.keyLen) fun _ =>
    andThen (valueOf (.len .nonce) s.nonceLen) fun _ =>
    andThen (valueOf (.len .inp) s.inLen) fun _ =>
    andThen (valueOf (.len .out) s.outLen) fun _ =>
    andThen (placed s) fun _ =>
    .next (startRun c s)

/-- `CHECK` (R152): no cause advances `SEQ`; any cause takes the Precondition Violation with every cause that holds. -/
def execCheck (s : State) : StepOutcome :=
  andThen (valueOf (.len .key) s.keyLen) fun k =>
  andThen (valueOf (.len .nonce) s.nonceLen) fun n =>
  andThen (valueOf (.len .inp) s.inLen) fun i =>
  andThen (valueOf (.len .out) s.outLen) fun o =>
  let c := violationCauses k n i o
  if c ≠ 0#3 then .next (raiseViolation c s) else .next (advance s)

/-- `BDONE t` (R153): go to `t` when `POS = IN_LEN`. A target above 92 has no meaning (R81; DEDUCED, log entry 13). -/
def execBdone (t : BitVec 8) (s : State) : StepOutcome :=
  if targetInRom t then
    andThen (valueOf .pos s.pos) fun p =>
    andThen (valueOf (.len .inp) s.inLen) fun n =>
    .next (if p = n then goTo t s else advance s)
  else .refused (.reserved .targetAbove)

/-- `XORCHUNK` (R154): the chunk at `POS` of `IN xor KS` into `OUT`, then `POS` past the chunk. Each byte of `IN` is read before `OUT`'s
byte at that offset is written, so that the two may be the same byte (R52). A shifted overlap is refused after `POS` and `IN_LEN` have
been read and before any byte of `KS` is (DESIGN CHOICE, log entry 18). -/
def execXorchunk (s : State) : StepOutcome :=
  andThen (valueOf .pos s.pos) fun p =>
  andThen (valueOf (.len .inp) s.inLen) fun n =>
  andThen (placed s) fun _ =>
  let m := chunkLen n p
  andThen (xorBytes p (chunkOffsets m) s) fun t =>
  .next (advance { t with pos := some (p + m) })

/-- `CTRINC` (R155): the Block Counter plus one, modulo 2^32. -/
def execCtrinc (s : State) : StepOutcome :=
  andThen (valueOf .ctr s.ctr) fun c => .next (advance { s with ctr := some (add32 c 1#32) })

/-- `JMP t` (R156). A target above 92 has no meaning (R81; DEDUCED, log entry 13). -/
def execJmp (t : BitVec 8) (s : State) : StepOutcome :=
  if targetInRom t then .next (goTo t s) else .refused (.reserved .targetAbove)

/-- `END` (R157): the run is complete. -/
def execEndrun (s : State) : StepOutcome := .next (finishRun s)

end Sys2Proof.Machine
end

