-- ==== Sys2Proof/Machine/Dispatch.lean ====
section
/-! DEFINITION. What an instruction does: one arm for each constructor of `Instr`, each one call of its meaning. -/

namespace Sys2Proof.Machine

def exec (i : Instr) (s : State) : Host.Outcome State Fault Refusal :=
  match i with
  | .stream => Sys2Proof.Machine.execStream s
  | .check => Sys2Proof.Machine.execCheck s
  | .ldconst => Sys2Proof.Machine.execLdconst s
  | .ldkey => Sys2Proof.Machine.execLdkey s
  | .ldctr => Sys2Proof.Machine.execLdctr s
  | .ldnonce => Sys2Proof.Machine.execLdnonce s
  | .save => Sys2Proof.Machine.execSave s
  | .qr a b c d => Sys2Proof.Machine.execQr a b c d s
  | .feedfwd => Sys2Proof.Machine.execFeedfwd s
  | .ser => Sys2Proof.Machine.execSer s
  | .xorchunk => Sys2Proof.Machine.execXorchunk s
  | .ctrinc => Sys2Proof.Machine.execCtrinc s
  | .bdone t => Sys2Proof.Machine.execBdone t s
  | .jmp t => Sys2Proof.Machine.execJmp t s
  | .endrun => Sys2Proof.Machine.execEndrun s

end Sys2Proof.Machine
end

