-- ==== Sys2Proof/Machine/Rom.lean ====
section
/-! DEFINITION. The schedule ROM (rules R73 and R76), the index tuples of the rounds (R65), and the pseudo-operations with their
expansions (R85, R86). The ROM is a constant, not state (R36, R58, R75). -/

namespace Sys2Proof.Machine

/-- The eight words `T[0..8]` of one application of the mixing transformation (R72, R76). -/
def dRoundWords : List Word :=
  [0x0700048C#32, 0x0700159D#32, 0x070026AE#32, 0x070037BF#32,
   0x070005AF#32, 0x070016BC#32, 0x0700278D#32, 0x0700349E#32]

/-- `ROM[0..7]` (R76). -/
def romHead : List Word :=
  [0x01000000#32, 0x0C00005C#32, 0x02000000#32, 0x03000000#32, 0x04000000#32, 0x05000000#32, 0x06000000#32]

/-- `ROM[87..93]` (R76). -/
def romTail : List Word :=
  [0x08000000#32, 0x09000000#32, 0x0A000000#32, 0x0B000000#32, 0x0D000001#32, 0x0E000000#32]

/-- The ninety-three words of the schedule ROM (R76). -/
def rom : List Word := romHead ++ (List.replicate Config.dRounds dRoundWords).flatten ++ romTail

/-- The five pseudo-operations (R85). -/
inductive Pseudo where
  | init
  | colround
  | diaground
  | dround
  | block
  deriving DecidableEq, Repr

/-- `INIT` (R85, R94). -/
def initOps : List Instr := [.ldconst, .ldkey, .ldctr, .ldnonce]

/-- `COLROUND` (R85, R121). -/
def colRoundOps : List Instr := [.qr 0 4 8 12, .qr 1 5 9 13, .qr 2 6 10 14, .qr 3 7 11 15]

/-- `DIAGROUND` (R85, R122). -/
def diagRoundOps : List Instr := [.qr 0 5 10 15, .qr 1 6 11 12, .qr 2 7 8 13, .qr 3 4 9 14]

/-- `DROUND` (R85, R123): the column round, then the diagonal round. -/
def dRoundOps : List Instr := colRoundOps ++ diagRoundOps

/-- `BLOCK` (R85, R125). -/
def blockOps : List Instr :=
  initOps ++ [.save] ++ (List.replicate Config.dRounds dRoundOps).flatten ++ [.feedfwd, .ser]

/-- The micro-operations a pseudo-operation stands for (R85). -/
def expand : Pseudo → List Instr
  | .init => initOps
  | .colround => colRoundOps
  | .diaground => diagRoundOps
  | .dround => dRoundOps
  | .block => blockOps

/-- The whole ROM as micro-operations (R86). -/
def romOps : List Instr := [.check, .bdone 92#8] ++ blockOps ++ [.xorchunk, .ctrinc, .jmp 1#8, .endrun]

end Sys2Proof.Machine
end

