-- ==== Sys2Proof/Machine/Sequencer.lean ====
section
/-! DEFINITION. Whose turn it is and what it does: the CORE's fetch, decode and execute (R24, R150), the host's moves (R193), and
how an instruction is placed where the next step fetches it. -/

namespace Sys2Proof.Machine

/-- The program the sequencer walks: the schedule ROM, unless a test program stands in its place (R75, U9). -/
def program (s : State) : List Word := s.testProgram.getD rom

/-- Fetch the word at `SEQ` (R24, R150). A `SEQ` above 92, or past the end of a shorter test program, is refused
(log entry 12). -/
def fetch (s : State) : Read Word :=
  if s.seq.toNat ≤ Config.lastIndex then
    match (program s)[s.seq.toNat]? with
    | some w => .next w
    | none => .refused (.seqOutside s.seq)
  else .refused (.seqOutside s.seq)

/-- Decode a fetched word and execute it; a reserved word is refused and given no meaning (R81). -/
def runWord (w : Word) (s : State) : StepOutcome :=
  match decodeWord w with
  | .ok i => exec i s
  | .error e => .refused (.reserved e)

/-- The CORE's turn: a step while `STATUS = BUSY` (R150); otherwise the CORE has no enabled step and nothing changes (R167, R184,
R201; DESIGN CHOICE, log entry 6). -/
def coreTurn (s : State) : StepOutcome :=
  if s.status = .busy then andThen (fetch s) fun w => runWord w s else .next s

/-- A write to `CMD` (R67, R80): the one command is executed, a reserved code changes nothing. -/
def commandWrite (c : BitVec 8) (s : State) : StepOutcome :=
  match decodeCommand c with
  | .ok i => exec i s
  | .error _ => .next s

/-- The host fills a byte of a space (R42, R193). Where `OUT` overlaps `IN` at a shifted offset a fill of either is refused: it would
change a byte of the other at an offset the spec does not give (R52). -/
def hostFill (sp : Space) (a : Nat) (b : Byte) (s : State) : StepOutcome :=
  match sp with
  | .key => .next (setByte sp a b s)
  | .nonce => .next (setByte sp a b s)
  | .inp => andThen (placed s) fun _ => .next (setByte sp a b s)
  | .out => andThen (placed s) fun _ => .next (setByte sp a b s)

/-- The host's turn (R193). Operands and spaces are written in `IDLE` and `DONE` only: at any other point the host has no such move (R205,
R206, D17, U13; in `HALT` DEDUCED, log entry 7), and a fill may be at any offset (DESIGN CHOICE, log entry 16). A read changes nothing. -/
def hostTurn (m : HostMove) (s : State) : StepOutcome :=
  match m with
  | .pass => coreTurn s
  | .writeCtr0 v => if hostMayWrite s then .next { s with ctr0 := some v } else .refused (.noSuchMove m)
  | .writeLen sp n => if hostMayWrite s then .next (setLen sp n s) else .refused (.noSuchMove m)
  | .writeByte sp a b => if hostMayWrite s then hostFill sp a b s else .refused (.noSuchMove m)
  | .writeCmd c => commandWrite c s
  | .readReg r => andThen (hostReadReg r s) fun _ => .next s
  | .readOut a => andThen (hostReadOut a s) fun _ => .next s
  | .reset => .next (resetCore s)

/-- The machine's turn: the next host move if one is still to come, and otherwise the CORE's turn (DESIGN CHOICE, log entry 1). -/
def turn (s : State) : StepOutcome :=
  match s.host with
  | [] => coreTurn s
  | m :: rest => hostTurn m { s with host := rest }

/-! ## Placing an instruction where the next step fetches it -/

/-- The set-up the host owes before `STREAM` (R203), for the operand registers that hold no value: lengths that pass `CHECK`, an empty
input, the starting counter 0. -/
def setUpOperands (s : State) : State :=
  { s with
    ctr0 := some (s.ctr0.getD 0#32)
    keyLen := some (s.keyLen.getD Config.keyBytes)
    nonceLen := some (s.nonceLen.getD Config.nonceBytes)
    inLen := some (s.inLen.getD 0)
    outLen := some (s.outLen.getD 0) }

/-- Place a command: the host owes the operands first, then the next move writes the code to `CMD`. -/
def placeCommand (c : BitVec 8) (s : State) : State :=
  { setUpOperands s with host := .writeCmd c :: s.host }

/-- A hand-made program (U9) that writes every location a micro-operation reads: `INIT`, `SAVE` and `SER`. -/
def writingWords : List Word :=
  [0x02000000#32, 0x03000000#32, 0x04000000#32, 0x05000000#32, 0x06000000#32, 0x09000000#32]

/-- The micro-operation words of a list, executed in order. -/
def runWords : List Word → State → StepOutcome
  | [], s => .next s
  | w :: rest, s => andThen (runWord w s) fun t => runWords rest t

/-- A run just started: as after an accepted `STREAM` (R150). -/
def runJustStarted (s : State) : State := startRun (s.ctr0.getD 0#32) (setUpOperands s)

/-- Place a micro-operation word: the CORE is running, it is its turn, and the word at `SEQ` of its program is `w`. A CORE that is not
`BUSY` has first started a run and executed `writingWords`, so that the locations the word reads have been written (R33); where those
words cannot run, on a key or a nonce that is too short, it has only started the run. -/
def placeWord (w : Word) (s : State) : State :=
  let put (r : State) (p : List Word) : State := { r with host := .pass :: s.host, testProgram := some (p.set r.seq.toNat w) }
  if s.status = .busy then put s (program s)
  else
    match runWords writingWords (runJustStarted s) with
    | .next r => put r (writingWords ++ (program s).drop writingWords.length)
    | .fault _ => put (runJustStarted s) (program s)
    | .refused _ => put (runJustStarted s) (program s)

end Sys2Proof.Machine
end

