-- ==== Sys2Proof/Machine/Step.lean ====
section
/-! DEFINITION. One step of the machine, and an instruction placed where the step fetches it. -/

namespace Sys2Proof.Machine

/-- One step: the host's next move, or one micro-operation of the CORE (R5). -/
def step (s : State) : Host.Outcome State Fault Refusal := turn s

/-- `s` with the instruction of `nbits` bits and value `w` where `step` takes its next instruction: an 8-bit code is written to
`CMD`, any other width is a micro-operation word at `SEQ` (DESIGN CHOICE, log entry 2). -/
def State.withFetchWord (s : State) (nbits w : Nat) : State :=
  if nbits = 8 then placeCommand (BitVec.ofNat 8 w) s else placeWord (BitVec.ofNat 32 w) s

end Sys2Proof.Machine
end

