-- ==== Sys2Proof/Machine/Assembler.lean ====
section
/-! DEFINITION. The assembler syntax of rule R84, one micro-operation or pseudo-operation (R85) a line: a line of text to its
micro-operations, and a micro-operation to its line. The spec gives white space no rule beyond the examples (DESIGN CHOICE, log
entry 10): spaces may stand between the parts of a line, and those inside what follows the mnemonic are dropped. -/

namespace Sys2Proof.Machine

/-- The mnemonics with no operand (R70), and the pseudo-operations with their expansions (R85). -/
def plainMnemonics : List (List Char × List Instr) :=
  [(['C', 'H', 'E', 'C', 'K'], [.check]),
   (['L', 'D', 'C', 'O', 'N', 'S', 'T'], [.ldconst]),
   (['L', 'D', 'K', 'E', 'Y'], [.ldkey]),
   (['L', 'D', 'C', 'T', 'R'], [.ldctr]),
   (['L', 'D', 'N', 'O', 'N', 'C', 'E'], [.ldnonce]),
   (['S', 'A', 'V', 'E'], [.save]),
   (['F', 'E', 'E', 'D', 'F', 'W', 'D'], [.feedfwd]),
   (['S', 'E', 'R'], [.ser]),
   (['X', 'O', 'R', 'C', 'H', 'U', 'N', 'K'], [.xorchunk]),
   (['C', 'T', 'R', 'I', 'N', 'C'], [.ctrinc]),
   (['E', 'N', 'D'], [.endrun])]
  ++ [(['I', 'N', 'I', 'T'], expand .init),
   (['C', 'O', 'L', 'R', 'O', 'U', 'N', 'D'], expand .colround),
   (['D', 'I', 'A', 'G', 'R', 'O', 'U', 'N', 'D'], expand .diaground),
   (['D', 'R', 'O', 'U', 'N', 'D'], expand .dround),
   (['B', 'L', 'O', 'C', 'K'], expand .block)]

/-- The text cut at each separator. -/
def splitAtChar (sep : Char) : List Char → List (List Char)
  | [] => [[]]
  | c :: cs =>
    if c = sep then [] :: splitAtChar sep cs
    else match splitAtChar sep cs with
      | [] => [[c]]
      | h :: t => (c :: h) :: t

/-- A decimal numeral (R84): any text of one or more decimal digits, leading zeros included, so that `QR 00,4,8,12` assembles as
`QR 0,4,8,12` and `JMP 0092` as `JMP 92`; the spec gives numerals no form beyond its examples (DESIGN CHOICE, log entry 10). -/
def decimal (cs : List Char) : Option Nat :=
  if cs ≠ [] ∧ cs.all (fun c => '0' ≤ c && c ≤ '9') then
    some (cs.foldl (fun n c => 10 * n + (c.toNat - '0'.toNat)) 0)
  else none

/-- A decimal index of format Q, 0 to 15. -/
def indexOf (cs : List Char) : Option (Fin 16) :=
  match decimal cs with
  | some n => if h : n < 16 then some ⟨n, h⟩ else none
  | none => none

/-- A well-formed micro-operation as a line's result; an ill-formed one has no word (R81). -/
def accepted (i : Instr) : Option (List Instr) := if i.wf then some [i] else none

/-- A mnemonic that takes an operand, with the operand's text (R84). No space stands in the text any more: `assembleLine` has dropped them
(DESIGN CHOICE, log entry 10). -/
def assembleOperand (m operand : List Char) : Option (List Instr) :=
  if m = ['Q', 'R'] then
    match (splitAtChar ',' operand).map indexOf with
    | [some a, some b, some c, some d] => accepted (.qr a b c d)
    | _ => none
  else
    match decimal operand with
    | some t =>
      if t < 256 then
        if m = ['B', 'D', 'O', 'N', 'E'] then accepted (.bdone (BitVec.ofNat 8 t))
        else if m = ['J', 'M', 'P'] then accepted (.jmp (BitVec.ofNat 8 t))
        else none
      else none
    | none => none

/-- The micro-operations of one line (R84, R85): none for a line that is empty but for a comment. All spaces after the mnemonic are
dropped, those inside a numeral too, so that `JMP 9 2` assembles as `JMP 92` and `QR 1 2,3,4,5` as `QR 12,3,4,5`; the spec says nothing
of white space (DESIGN CHOICE, log entry 10). -/
def assembleLine (line : List Char) : Option (List Instr) :=
  match (splitAtChar ' ' (line.takeWhile (fun c => c ≠ ';'))).filter (fun t => t ≠ []) with
  | [] => some []
  | [m] => plainMnemonics.lookup m
  | m :: rest => assembleOperand m rest.flatten

/-- The line of a micro-operation (R84). `STREAM` is a host command and has no line. -/
def lineOf : Instr → Option (List Char)
  | .stream => none
  | .check => some ['C', 'H', 'E', 'C', 'K']
  | .ldconst => some ['L', 'D', 'C', 'O', 'N', 'S', 'T']
  | .ldkey => some ['L', 'D', 'K', 'E', 'Y']
  | .ldctr => some ['L', 'D', 'C', 'T', 'R']
  | .ldnonce => some ['L', 'D', 'N', 'O', 'N', 'C', 'E']
  | .save => some ['S', 'A', 'V', 'E']
  | .qr a b c d =>
    some (['Q', 'R', ' '] ++ Nat.toDigits 10 a ++ [','] ++ Nat.toDigits 10 b ++ [','] ++ Nat.toDigits 10 c
      ++ [','] ++ Nat.toDigits 10 d)
  | .feedfwd => some ['F', 'E', 'E', 'D', 'F', 'W', 'D']
  | .ser => some ['S', 'E', 'R']
  | .xorchunk => some ['X', 'O', 'R', 'C', 'H', 'U', 'N', 'K']
  | .ctrinc => some ['C', 'T', 'R', 'I', 'N', 'C']
  | .bdone t => some (['B', 'D', 'O', 'N', 'E', ' '] ++ Nat.toDigits 10 t.toNat)
  | .jmp t => some (['J', 'M', 'P', ' '] ++ Nat.toDigits 10 t.toNat)
  | .endrun => some ['E', 'N', 'D']

end Sys2Proof.Machine
end

