-- ==== Sys2Proof/Machine/BigStep.lean ====
section
/-! DEFINITION. The big-step functions of the spec beside the small-step machine: `init_fn` (R95), `mix_fn` and `block_fn` (R130),
`stream_fn` (R151). They take exactly the lengths for which the spec defines them. -/

namespace Sys2Proof.Machine

/-- The four bytes of a sequence from offset `a` on, as a little-endian word (R62, R63). -/
def wordLeAt {n : Nat} (b : Vector Byte n) (a : Nat) (h : a + 3 < n) : Word :=
  le32 b[a] b[a + 1] b[a + 2] b[a + 3]

/-- `init_fn` (R95), word by word. -/
def initFn (key : Vector Byte 32) (nonce : Vector Byte 12) (ctr : Word) : Vector Word 16 :=
  Vector.ofFn fun i =>
    if h : i.val < 4 then constWord ⟨i.val, h⟩
    else if h : i.val < 12 then wordLeAt key (4 * (i.val - 4)) (by omega)
    else if h : i.val = 12 then ctr
    else wordLeAt nonce (4 * (i.val - 13)) (by omega)

/-- The column round on a sequence of sixteen words (R121). -/
def colRound (v : Vector Word 16) : Vector Word 16 :=
  qrAt (qrAt (qrAt (qrAt v 0 4 8 12) 1 5 9 13) 2 6 10 14) 3 7 11 15

/-- The diagonal round (R122). -/
def diagRound (v : Vector Word 16) : Vector Word 16 :=
  qrAt (qrAt (qrAt (qrAt v 0 5 10 15) 1 6 11 12) 2 7 8 13) 3 4 9 14

/-- `n` applications of the mixing transformation (R123, R130). -/
def mixRounds : Nat → Vector Word 16 → Vector Word 16
  | 0, v => v
  | n + 1, v => diagRound (colRound (mixRounds n v))

/-- `mix_fn` (R130): the eighty quarter-rounds (R126). -/
def mixFn (v : Vector Word 16) : Vector Word 16 := mixRounds Config.dRounds v

/-- `block_fn` (R130): the sixty-four keystream bytes. -/
def blockFn (key : Vector Byte 32) (nonce : Vector Byte 12) (ctr : Word) : Vector Byte 64 :=
  let i := initFn key nonce ctr
  serFn (addWords (mixFn i) i)

/-- Byte `p` of the keystream of a stream that starts at counter `ctr0` (R66, R151). -/
def keystreamByte (key : Vector Byte 32) (nonce : Vector Byte 12) (ctr0 : Word) (p : Nat) : Byte :=
  (blockFn key nonce (add32 ctr0 (BitVec.ofNat 32 (p / 64))))[p % 64]

/-- `stream_fn` (R151). -/
def streamFn (key : Vector Byte 32) (nonce : Vector Byte 12) (ctr0 : Word) (inp : List Byte) : List Byte :=
  inp.mapIdx fun p b => xor8 b (keystreamByte key nonce ctr0 p)

/-- The number of chunks of an input of `n` bytes: `ceil(n / 64)` (R66). -/
def chunks (n : Nat) : Nat := (n + 63) / 64

/-- The key a state's `KEY` holds, the thirty-two bytes `KEY[0..32]`. -/
def keyOf (s : State) : Vector Byte 32 := Vector.ofFn fun i => byteAt .key i.val s

/-- The nonce a state's `NONCE` holds, the twelve bytes `NONCE[0..12]`. -/
def nonceOf (s : State) : Vector Byte 12 := Vector.ofFn fun i => byteAt .nonce i.val s

/-- The first `n` bytes of a space. -/
def bytesOf (sp : Space) (n : Nat) (s : State) : List Byte := (List.range n).map fun a => byteAt sp a s

end Sys2Proof.Machine
end

