-- ==== Sys2Proof/Safety.lean ====
section
/-! DEFINITION. The terms claims use: what an instruction leaves unchanged, how a run begins and ends, and the invariants of the
machine and of its own schedule. -/

namespace Sys2Proof.Machine

/-! ## Frames -/

/-- The parts of the state that some instruction writes. -/
inductive Part where
  | x
  | sv
  | ks
  | ctr
  | pos
  | seq
  | status
  | fault
  | out
  deriving DecidableEq, Repr

/-- A part of the state is the same in `t` as in `s`; of `OUT`, every byte. -/
def Unchanged (s t : State) : Part → Prop
  | .x => t.x = s.x
  | .sv => t.sv = s.sv
  | .ks => t.ks = s.ks
  | .ctr => t.ctr = s.ctr
  | .pos => t.pos = s.pos
  | .seq => t.seq = s.seq
  | .status => t.status = s.status
  | .fault => t.fault = s.fault
  | .out => ∀ a, byteAt .out a t = byteAt .out a s

/-- What no instruction writes: the five operand registers, every byte of `KEY`, `NONCE` and `IN` (R23, R40), the mapping of `IN` and
`OUT`, the host's moves still to come and the program. Where `IN` and `OUT` are the same bytes (R52) a byte of `IN` is a byte of `OUT`,
and `Unchanged` says what becomes of it. -/
structure InputsUnchanged (s t : State) : Prop where
  ctr0 : t.ctr0 = s.ctr0
  lens : ∀ sp, spaceLen sp t = spaceLen sp s
  key : ∀ a, byteAt .key a t = byteAt .key a s
  nonce : ∀ a, byteAt .nonce a t = byteAt .nonce a s
  inp : s.placement ≠ .same → ∀ a, byteAt .inp a t = byteAt .inp a s
  placement : t.placement = s.placement
  host : t.host = s.host
  program : t.testProgram = s.testProgram

/-- Only the parts of the list may differ between `s` and `t`. -/
def Frame (written : List Part) (s t : State) : Prop :=
  InputsUnchanged s t ∧ ∀ p, p ∉ written → Unchanged s t p

/-- The words of `X` that an instruction writes (R23). `END` and a faulting `CHECK` are not named here: they leave every word without
a value (R20). -/
def writesX : Instr → Fin 16 → Bool
  | .ldconst, i => i.val < 4
  | .ldkey, i => 4 ≤ i.val && i.val < 12
  | .ldctr, i => i.val = 12
  | .ldnonce, i => 13 ≤ i.val
  | .qr a b c d, i => i = a || i = b || i = c || i = d
  | .feedfwd, _ => true
  | .stream, _ => false
  | .check, _ => false
  | .save, _ => false
  | .ser, _ => false
  | .xorchunk, _ => false
  | .ctrinc, _ => false
  | .bdone _, _ => false
  | .jmp _, _ => false
  | .endrun, _ => false

/-! ## Spaces that share their bytes -/

/-- A byte of the space `sp` is the byte of `sq` at the same offset: the two are one space, or they are `IN` and `OUT` mapped onto the
same bytes (R52). -/
abbrev SharesBytes (s : State) (sp sq : Space) : Prop :=
  sq = sp ∨ (s.placement = .same ∧ sp ∈ [Space.inp, .out] ∧ sq ∈ [Space.inp, .out])

/-! ## Words that decode -/

/-- The condition of rule R71 on a word, in its own fields: the opcode in `0x01` to `0x0E`, bits 23 to 16 zero, and by format the
operand field zero (N), four pairwise different indices (Q), or bits 15 to 8 zero and a target of at most 92 (T). -/
def NotReserved (w : Word) : Prop :=
  let op := w.toNat / 2 ^ 24
  1 ≤ op ∧ op ≤ 14 ∧ w.toNat / 2 ^ 16 % 2 ^ 8 = 0 ∧
    (if op = 7 then
      let a := w.toNat / 2 ^ 12 % 2 ^ 4
      let b := w.toNat / 2 ^ 8 % 2 ^ 4
      let c := w.toNat / 2 ^ 4 % 2 ^ 4
      let d := w.toNat % 2 ^ 4
      a ≠ b ∧ a ≠ c ∧ a ≠ d ∧ b ≠ c ∧ b ≠ d ∧ c ≠ d
    else if op = 12 ∨ op = 13 then w.toNat / 2 ^ 8 % 2 ^ 8 = 0 ∧ w.toNat % 2 ^ 8 ≤ 92
    else w.toNat % 2 ^ 16 = 0)

/-! ## Runs -/

/-- `k` steps of the machine. -/
def run (k : Nat) (s : State) : StepOutcome := Sys2Proof.core.run k s

/-- The internal locations hold no value (R33). -/
def InternalCleared (s : State) : Prop :=
  (∀ i : Fin 16, s.x[i] = none) ∧ (∀ i : Fin 16, s.sv[i] = none) ∧ (∀ k : Fin 64, s.ks[k] = none) ∧ s.ctr = none ∧ s.pos = none

/-- The three conditions of the precondition check (R152). -/
def LengthsPass (keyLen nonceLen inLen outLen : Nat) : Prop := keyLen = 32 ∧ nonceLen = 12 ∧ inLen = outLen

/-- The machine's own schedule is about to run undisturbed: the ROM, and no host move to come. -/
def Undisturbed (s : State) : Prop := s.host = [] ∧ s.testProgram = none

/-- The state right after an accepted `STREAM` (R150) with lengths that pass the check: `n` bytes of input, starting counter `c0`, `IN` and
`OUT` apart or the same bytes (R52). -/
structure AtRunStart (c0 : Word) (n : Nat) (s : State) : Prop where
  status : s.status = .busy
  seq : s.seq = 0#7
  fault : s.fault = 0#3
  ctr : s.ctr = some c0
  pos : s.pos = some 0
  keyLen : s.keyLen = some 32
  nonceLen : s.nonceLen = some 12
  inLen : s.inLen = some n
  outLen : s.outLen = some n
  placed : s.placement ≠ .shifted

/-! ## Invariants -/

/-- The invariant of the whole machine, whatever program it walks and whatever the host does: the four memories keep their canonical
form; `FAULT` is non-zero exactly in `HALT` (R26); outside a run the internal locations hold no value (R33); in a run the operand
registers, `CTR` and `POS` hold values (R34, R150), `POS` does not pass `IN_LEN` (R153) and `OUT` does not overlap `IN` at a shifted
offset (R52). -/
structure Inv (s : State) : Prop where
  memories : ∀ sp, (heldMem sp s).wf = true
  fault : s.fault ≠ 0#3 ↔ s.status = .halt
  cleared : s.status ≠ .busy → InternalCleared s
  held : s.status = .busy → s.ctr0.isSome = true ∧ s.ctr.isSome = true ∧ ∀ sp, (spaceLen sp s).isSome = true
  bounded : s.status = .busy → ∃ p n, s.pos = some p ∧ s.inLen = some n ∧ p ≤ n
  placed : s.status = .busy → s.placement ≠ .shifted

/-- Every word of `X` with an index from `lo` up to but not including `hi` holds a value. -/
def HeldX (lo hi : Nat) (s : State) : Prop := ∀ i : Fin 16, lo ≤ i.val → i.val < hi → s.x[i].isSome = true

/-- A point of a run of the schedule ROM: at `SEQ = q`, with `p` of `n` bytes processed, the counter that started at `c0` being
`c`. The counter is that of the chunk in work (R159), `POS` is at a chunk boundary (R32), and what the rest of the body reads
has been written (R33). -/
structure RunPoint (q p n : Nat) (c0 c : Word) (s : State) : Prop where
  seq : s.seq.toNat = q ∧ q ≤ 92
  ctr0 : s.ctr0 = some c0
  ctr : s.ctr = some c
  pos : s.pos = some p
  inLen : s.inLen = some n
  bounded : p ≤ n
  start : q = 0 → p = 0
  checked : q ≠ 0 → s.keyLen = some 32 ∧ s.nonceLen = some 12 ∧ s.outLen = some n
  boundary : 64 ∣ p ∨ p = n
  body : 2 ≤ q → q ≤ 89 → p < n ∧ 64 ∣ p
  last : q = 92 → p = n
  counter : if q = 90 then add32 c 1#32 = add32 c0 (BitVec.ofNat 32 (chunks p))
    else c = add32 c0 (BitVec.ofNat 32 (chunks p))
  consts : 3 ≤ q → q ≤ 91 → HeldX 0 4 s
  key : 4 ≤ q → q ≤ 91 → HeldX 4 12 s
  count : 5 ≤ q → q ≤ 91 → HeldX 12 13 s
  nonce : 6 ≤ q → q ≤ 91 → HeldX 13 16 s
  saved : 7 ≤ q → q ≤ 91 → ∀ i : Fin 16, s.sv[i].isSome = true
  stream : 89 ≤ q → q ≤ 91 → ∀ k : Fin 64, s.ks[k].isSome = true

/-- The invariant of the hardware's own schedule: the machine's invariant, the ROM as the program, and in a run a point of the
schedule. -/
structure ScheduleInv (s : State) : Prop where
  inv : Inv s
  program : s.testProgram = none
  point : s.status = .busy → ∃ q p n c0 c, RunPoint q p n c0 c s

end Sys2Proof.Machine
end

