-- ==== Sys2Proof/Certificates/Slice0/Obligations.lean ====
section
/-! DEFINITION. The statements about the machine for the provers, one `Obligations.<Name>` each, from the numbered rules of the
spec. -/

open Sys2Proof Sys2Proof.Machine

/-! ## Decoding and encoding -/

/-- R68, R70, R72 and section 9 of 95_test_vectors.md: one word of each format and kind, accepted or reserved. -/
def Obligations.SampleWordsDecode : Prop :=
  decode (.command 0x01#8) = .ok .stream ∧
  decodeWord 0x01000000#32 = .ok .check ∧
  decodeWord 0x03000000#32 = .ok .ldkey ∧
  decodeWord 0x0700048C#32 = .ok (.qr 0 4 8 12) ∧
  decodeWord 0x0700FEDC#32 = .ok (.qr 15 14 13 12) ∧
  decodeWord 0x08000000#32 = .ok .feedfwd ∧
  decodeWord 0x09000000#32 = .ok .ser ∧
  decodeWord 0x0C00005C#32 = .ok (.bdone 92#8) ∧
  decodeWord 0x0D000001#32 = .ok (.jmp 1#8) ∧
  decodeWord 0x0E000000#32 = .ok .endrun ∧
  decodeWord 0x00000000#32 = .error .opcode ∧
  decodeWord 0x0F000000#32 = .error .opcode ∧
  decodeWord 0x01000001#32 = .error .operandField ∧
  decodeWord 0x0701048C#32 = .error .mustBeZero ∧
  decodeWord 0x07001123#32 = .error .equalIndices ∧
  decodeWord 0x0C00005D#32 = .error .targetAbove ∧
  decodeWord 0x0C00015C#32 = .error .targetField

/-- R67, R68, R70, R71, R72: decoding the code of a well-formed instruction gives it back, whatever its operands. -/
def Obligations.DecodeOfEncode : Prop :=
  ∀ i : Instr, i.wf = true → decode (encode i) = .ok i

/-- R71: a word decodes exactly when it is not reserved, and then encoding what it decodes to gives the word back. -/
def Obligations.EncodeOfDecode : Prop :=
  ∀ w : Word, ((∃ i, decodeWord w = .ok i) ↔ NotReserved w) ∧
    ∀ i, decodeWord w = .ok i → i.wf = true ∧ encode i = .word w

/-- R81: a fetched reserved word is refused by name and changes nothing; the ROM holds no reserved word. -/
def Obligations.ReservedWordRefused : Prop :=
  (∀ (s : State) (w : Word), s.host = [] → s.status = .busy → s.seq.toNat ≤ 92 → (program s)[s.seq.toNat]? = some w →
    ¬ NotReserved w → ∃ e, step s = .refused (.reserved e)) ∧
  ∀ w ∈ rom, NotReserved w

/-- R81, R82, R108 (DEDUCED, log entry 13): an instruction whose operands make its word reserved, `QR` on two equal indices or a target
above 92, is refused by the reason's name in every state. The spec says so of the word; the model's meanings say it of the instruction. -/
def Obligations.IllFormedRefused : Prop :=
  (∀ (a b c d : Fin 16) (s : State), (a = b ∨ a = c ∨ a = d ∨ b = c ∨ b = d ∨ c = d) →
    exec (.qr a b c d) s = .refused (.reserved .equalIndices)) ∧
  ∀ (d : BitVec 8) (s : State), 92 < d.toNat →
    exec (.bdone d) s = .refused (.reserved .targetAbove) ∧ exec (.jmp d) s = .refused (.reserved .targetAbove)

/-- R84: the line of a well-formed micro-operation assembles to that micro-operation alone. -/
def Obligations.AssembleOfLine : Prop :=
  ∀ (i : Instr) (l : List Char), i.wf = true → lineOf i = some l → assembleLine l = some [i]

/-! ## The step -/

/-- R150 (its last clause), R24, R76: in a run, a step of the CORE executes what the word at `SEQ` decodes to, and a host move that
writes a command executes that command. The program is the ROM unless a test program stands in its place. The host's moves as an
input list are the model's own (log entry 1), and so is the test program (log entry 2). -/
def Obligations.StepRunsDecodedInstruction : Prop :=
  (∀ (s : State) (w : Word) (i : Instr), s.host = [] → s.status = .busy → s.seq.toNat ≤ 92 →
    (program s)[s.seq.toNat]? = some w → decodeWord w = .ok i → step s = exec i s) ∧
  (∀ (s : State) (rest : List HostMove) (w : Word) (i : Instr), s.host = .pass :: rest → s.status = .busy → s.seq.toNat ≤ 92 →
    (program s)[s.seq.toNat]? = some w → decodeWord w = .ok i → step s = exec i { s with host := rest }) ∧
  (∀ (s : State) (rest : List HostMove) (c : BitVec 8), s.host = .writeCmd c :: rest →
    step s = commandWrite c { s with host := rest } ∧
      ∀ i, decodeCommand c = .ok i → step s = exec i { s with host := rest }) ∧
  ∀ s : State, s.testProgram = none → program s = rom

/-- R24: `SEQ` after an instruction; a `SEQ` above 92 is refused; index 92 of the ROM is the `END`. -/
def Obligations.SequencerAdvances : Prop :=
  (∀ (i : Instr) (s t : State), exec i s = .next t →
    match i with
    | .stream => t = s ∨ t.seq = 0#7
    | .bdone d => (s.pos = s.inLen → t.seq.toNat = d.toNat) ∧ (s.pos ≠ s.inLen → t.seq = s.seq + 1#7)
    | .jmp d => t.seq.toNat = d.toNat
    | .endrun => t.seq = s.seq ∧ t.status = .done
    | .check => ∃ k n j o, s.keyLen = some k ∧ s.nonceLen = some n ∧ s.inLen = some j ∧ s.outLen = some o ∧
        (LengthsPass k n j o → t.seq = s.seq + 1#7) ∧ (¬ LengthsPass k n j o → t.seq = s.seq ∧ t.status = .halt)
    | _ => t.seq = s.seq + 1#7) ∧
  (∀ s : State, s.host = [] → s.status = .busy → 92 < s.seq.toNat → step s = .refused (.seqOutside s.seq)) ∧
  ∀ s : State, s.host = [] → s.status = .busy → s.testProgram = none → s.seq = 92#7 → step s = exec .endrun s

/-! ## Unit chacha20_state_init -/

/-- R90: `LDCONST` writes the four constant words. The spec supplies their values from general knowledge (log entry 8): that clause is no
rule of the source. -/
def Obligations.LdconstLoadsConstants : Prop :=
  encode .ldconst = .word 0x02000000#32 ∧
  ∀ s : State, ∃ t, exec .ldconst s = .next t ∧
    t.x[0] = some 0x61707865#32 ∧ t.x[1] = some 0x3320646E#32 ∧ t.x[2] = some 0x79622D32#32 ∧ t.x[3] = some 0x6B206574#32 ∧
    (∀ i : Fin 16, 4 ≤ i.val → t.x[i] = s.x[i]) ∧ t.seq = s.seq + 1#7 ∧ Frame [.x, .seq] s t

/-- R91, with the byte order of R44 (D4): `LDKEY` writes the eight little-endian key words when all thirty-two reads are in range, as
`CHECK` has established. That a `KEY_LEN` without a value sets no range is the model's choice (DEDUCED, log entry 20). -/
def Obligations.LdkeyLoadsKeyWords : Prop :=
  encode .ldkey = .word 0x03000000#32 ∧
  ∀ s : State, (∀ n, s.keyLen = some n → 32 ≤ n) → ∃ t, exec .ldkey s = .next t ∧
    (∀ (j : Nat) (h : j < 8), t.x[4 + j] = some (le32 (byteAt .key (4 * j) s) (byteAt .key (4 * j + 1) s)
      (byteAt .key (4 * j + 2) s) (byteAt .key (4 * j + 3) s))) ∧
    (∀ i : Fin 16, i.val < 4 ∨ 12 ≤ i.val → t.x[i] = s.x[i]) ∧ t.seq = s.seq + 1#7 ∧ Frame [.x, .seq] s t

/-- R92: `LDCTR` copies the Block Counter, any value, to `X[12]`. -/
def Obligations.LdctrLoadsCounter : Prop :=
  encode .ldctr = .word 0x04000000#32 ∧
  ∀ (s : State) (c : Word), s.ctr = some c → ∃ t, exec .ldctr s = .next t ∧
    t.x[12] = some c ∧ (∀ i : Fin 16, i.val ≠ 12 → t.x[i] = s.x[i]) ∧ t.seq = s.seq + 1#7 ∧ Frame [.x, .seq] s t

/-- R93, with the byte order of R44 (D4): `LDNONCE` writes the three little-endian nonce words when all twelve reads are in range, as
`CHECK` has established. That a `NONCE_LEN` without a value sets no range is the model's choice (DEDUCED, log entry 20). -/
def Obligations.LdnonceLoadsNonceWords : Prop :=
  encode .ldnonce = .word 0x05000000#32 ∧
  ∀ s : State, (∀ n, s.nonceLen = some n → 12 ≤ n) → ∃ t, exec .ldnonce s = .next t ∧
    (∀ (j : Nat) (h : j < 3), t.x[13 + j] = some (le32 (byteAt .nonce (4 * j) s) (byteAt .nonce (4 * j + 1) s)
      (byteAt .nonce (4 * j + 2) s) (byteAt .nonce (4 * j + 3) s))) ∧
    (∀ i : Fin 16, i.val < 13 → t.x[i] = s.x[i]) ∧ t.seq = s.seq + 1#7 ∧ Frame [.x, .seq] s t

/-- R94: the four micro-operations `ROM[2..6]`, run from any contents of `X`, leave `init_fn` of the key, the nonce and the counter
in `X`. That a length register without a value sets the loads no range is the model's choice (DEDUCED, log entry 20). -/
def Obligations.InitComputesInitFn : Prop :=
  ∀ (s : State) (c : Word), Undisturbed s → s.status = .busy → s.seq = 2#7 → s.ctr = some c →
    (∀ k, s.keyLen = some k → 32 ≤ k) → (∀ n, s.nonceLen = some n → 12 ≤ n) →
    ∃ t, run 4 s = .next t ∧ t.x = (initFn (keyOf s) (nonceOf s) c).map some ∧ t.seq = 6#7 ∧ Frame [.x, .seq] s t

/-- R96: `init_fn` is injective. -/
def Obligations.InitFnInjective : Prop :=
  ∀ (k k' : Vector Byte 32) (n n' : Vector Byte 12) (c c' : Word), initFn k n c = initFn k' n' c' → k = k' ∧ n = n' ∧ c = c'

/-! ## Unit chacha20_quarter_round -/

/-- R10: the three word operators: the sum modulo 2^32, the bits of exclusive-or, and the rotation by its formula and by its bits. -/
def Obligations.WordOperators : Prop :=
  (∀ a b : Word, (add32 a b).toNat = (a.toNat + b.toNat) % 2 ^ 32) ∧
  (∀ (a b : Word) (i : Nat), i < 32 → (xor32 a b).getLsbD i = (a.getLsbD i ^^ b.getLsbD i)) ∧
  ∀ (v : Word) (n : Nat), 1 ≤ n → n < 32 →
    (rotl32 v n).toNat = (v.toNat * 2 ^ n % 2 ^ 32) ||| (v.toNat / 2 ^ (32 - n)) ∧
    ∀ i, i < 32 → (rotl32 v n).getLsbD ((i + n) % 32) = v.getLsbD i

/-- R11: the two byte-order functions, and that each undoes the other. -/
def Obligations.ByteOrderFunctions : Prop :=
  (∀ b0 b1 b2 b3 : Byte, (le32 b0 b1 b2 b3).toNat = b0.toNat + 2 ^ 8 * b1.toNat + 2 ^ 16 * b2.toNat + 2 ^ 24 * b3.toNat) ∧
  (∀ (w : Word) (k : Nat), k < 4 → (byteOf k w).toNat = w.toNat / 2 ^ (8 * k) % 2 ^ 8) ∧
  ∀ w : Word, le32 (byteOf 0 w) (byteOf 1 w) (byteOf 2 w) (byteOf 3 w) = w

/-- R103: `QR` on four different indices makes the twelve assignments in strict order on the four words and on no other. -/
def Obligations.QrRunsTwelveAssignments : Prop :=
  ∀ (a b c d : Fin 16) (s : State) (v : Vector Word 16), pairwiseDifferent a b c d = true →
    (∀ i ∈ [a, b, c, d], s.x[i] = some v[i]) →
    encode (.qr a b c d) = .word (BitVec.ofNat 32 (0x07000000 + a.val * 4096 + b.val * 256 + c.val * 16 + d.val)) ∧
    ∃ t, exec (.qr a b c d) s = .next t ∧
      (∀ i ∈ [a, b, c, d], t.x[i] = some (qrInPlace a b c d v)[i]) ∧
      (∀ i : Fin 16, i ∉ [a, b, c, d] → t.x[i] = s.x[i]) ∧ t.seq = s.seq + 1#7 ∧ Frame [.x, .seq] s t

/-- R104: on four different indices the twelve assignments of R103 give `qr_fn` of the words before the step. -/
def Obligations.TwelveAssignmentsAreQrFn : Prop :=
  ∀ (a b c d : Fin 16) (v : Vector Word 16), pairwiseDifferent a b c d = true → qrInPlace a b c d v = qrAt v a b c d

/-- R107: `qr_fn` is a bijection on quadruples of words. -/
def Obligations.QrFnBijective : Prop :=
  Function.Bijective fun q : Word × Word × Word × Word => qrFn q.1 q.2.1 q.2.2.1 q.2.2.2

/-- R108, R121, R122, R65: two quarter-rounds on disjoint groups of different indices commute, and the four groups of the column round and
of the diagonal round are such groups. -/
def Obligations.DisjointQuarterRoundsCommute : Prop :=
  colRoundOps = [.qr 0 4 8 12, .qr 1 5 9 13, .qr 2 6 10 14, .qr 3 7 11 15] ∧
  diagRoundOps = [.qr 0 5 10 15, .qr 1 6 11 12, .qr 2 7 8 13, .qr 3 4 9 14] ∧
  (∀ round ∈ [colRoundOps, diagRoundOps],
    (∀ a b c d, .qr a b c d ∈ round → pairwiseDifferent a b c d = true) ∧
    round.Pairwise fun q q' => ∀ a b c d a' b' c' d', q = .qr a b c d → q' = .qr a' b' c' d' →
      ∀ i ∈ [a, b, c, d], i ∉ [a', b', c', d']) ∧
  ∀ (a b c d a' b' c' d' : Fin 16) (v : Vector Word 16), pairwiseDifferent a b c d = true → pairwiseDifferent a' b' c' d' = true →
    (∀ i ∈ [a, b, c, d], i ∉ [a', b', c', d']) →
    qrAt (qrAt v a b c d) a' b' c' d' = qrAt (qrAt v a' b' c' d') a b c d

/-! ## Unit chacha20_block_transform -/

/-- R120: `SAVE` copies all sixteen words of `X` to `S`; in the schedule it comes once, right after `INIT` and before the first `QR`. -/
def Obligations.SaveCopiesState : Prop :=
  encode .save = .word 0x06000000#32 ∧
  rom.take 8 = [0x01000000#32, 0x0C00005C#32, 0x02000000#32, 0x03000000#32, 0x04000000#32, 0x05000000#32, 0x06000000#32,
    0x0700048C#32] ∧
  (∀ k, rom[k]? = some 0x06000000#32 → k = 6) ∧
  ∀ s : State, (∀ i : Fin 16, s.x[i].isSome = true) → ∃ t, exec .save s = .next t ∧
    (∀ i : Fin 16, t.sv[i] = s.x[i]) ∧ t.seq = s.seq + 1#7 ∧ Frame [.sv, .seq] s t

/-- R124: `FEEDFWD` adds `S` into `X` word by word, each sum modulo 2^32. -/
def Obligations.FeedfwdAddsCopy : Prop :=
  encode .feedfwd = .word 0x08000000#32 ∧
  ∀ (s : State) (v w : Vector Word 16), (∀ i : Fin 16, s.x[i] = some v[i]) → (∀ i : Fin 16, s.sv[i] = some w[i]) →
    ∃ t, exec .feedfwd s = .next t ∧ (∀ i : Fin 16, t.x[i] = some (add32 v[i] w[i])) ∧ t.seq = s.seq + 1#7 ∧ Frame [.x, .seq] s t

/-- R125, R128: the eighty-seven micro-operations `ROM[2..89]`, run from any contents of `X`, `S` and `KS`, leave `block_fn` of the key,
the nonce and the counter in `KS`, and change nothing outside `X`, `S`, `KS` and `SEQ`. That a length register without a value sets the
loads no range is the model's choice (DEDUCED, log entry 20). -/
def Obligations.BlockComputesBlockFn : Prop :=
  ∀ (s : State) (c : Word), Undisturbed s → s.status = .busy → s.seq = 2#7 → s.ctr = some c →
    (∀ k, s.keyLen = some k → 32 ≤ k) → (∀ n, s.nonceLen = some n → 12 ≤ n) →
    ∃ t, run 87 s = .next t ∧ t.ks = (blockFn (keyOf s) (nonceOf s) c).map some ∧ t.seq = 89#7 ∧
      Frame [.x, .sv, .ks, .seq] s t

/-! ## Unit chacha20_serializer -/

/-- R140: `SER` writes the sixty-four bytes of the sixteen words, least significant byte first. -/
def Obligations.SerSerializesState : Prop :=
  encode .ser = .word 0x09000000#32 ∧
  ∀ (s : State) (v : Vector Word 16), (∀ i : Fin 16, s.x[i] = some v[i]) → ∃ t, exec .ser s = .next t ∧
    (∀ (i k : Nat) (hi : i < 16) (hk : k < 4), t.ks[4 * i + k] = some (byteOf k v[i])) ∧ t.seq = s.seq + 1#7 ∧
    Frame [.ks, .seq] s t

/-- R141: `ser_fn` gives `K[4i + k] = F[i][8k+7:8k]`, is undone by `le32`, and reaches every sequence of sixty-four bytes. -/
def Obligations.SerFnBijective : Prop :=
  (∀ (f : Vector Word 16) (i k : Nat) (hi : i < 16) (hk : k < 4), ((serFn f)[4 * i + k]).toNat = f[i].toNat / 2 ^ (8 * k) % 2 ^ 8) ∧
  (∀ (f : Vector Word 16) (i : Nat) (hi : i < 16),
    f[i] = le32 (serFn f)[4 * i] (serFn f)[4 * i + 1] (serFn f)[4 * i + 2] (serFn f)[4 * i + 3]) ∧
  Function.Bijective serFn

/-! ## Unit chacha20_stream_xor_driver -/

/-- R150: `STREAM` in `IDLE` or `DONE`, with the five operand registers holding values, starts a run; in `BUSY` and `HALT` it changes
nothing; and while `BUSY` the CORE's turn fetches `ROM[SEQ]`, decodes it and executes the micro-operation. A run starts with `IN` and
`OUT` apart or the same bytes; on a mapping at a shifted offset, which is outside the spec (R52), `STREAM` is refused
(`ShiftedOverlapRefused`). -/
def Obligations.StreamStartsRun : Prop :=
  encode .stream = .command 0x01#8 ∧
  (∀ (s : State) (c : Word), (s.status = .idle ∨ s.status = .done) → s.ctr0 = some c →
    (∀ sp, (spaceLen sp s).isSome = true) → s.placement ≠ .shifted → ∃ t, exec .stream s = .next t ∧
      t.ctr = some c ∧ t.pos = some 0 ∧ t.seq = 0#7 ∧ t.fault = 0#3 ∧ t.status = .busy ∧
      Frame [.ctr, .pos, .seq, .fault, .status] s t) ∧
  (∀ s : State, (s.status = .busy ∨ s.status = .halt) → exec .stream s = .next s) ∧
  ∀ (s : State) (w : Word) (i : Instr), s.status = .busy → s.testProgram = none → rom[s.seq.toNat]? = some w →
    decodeWord w = .ok i → coreTurn s = exec i s

/-- R80: the one command code is `0x01`, and a write of any other code changes no state; neither does a write of `0x01` while `BUSY` or
`HALT`. -/
def Obligations.CommandIgnored : Prop :=
  (∀ c : BitVec 8, decodeCommand c = if c = 0x01#8 then .ok .stream else .error .command) ∧
  ∀ (s : State) (c : BitVec 8), (c ≠ 0x01#8 ∨ s.status = .busy ∨ s.status = .halt) → commandWrite c s = .next s

/-- R34: a `STREAM` written while an operand register holds no value is refused, by the name of such a register. -/
def Obligations.StreamWithoutOperandRefused : Prop :=
  ∀ s : State, (s.status = .idle ∨ s.status = .done) → (s.ctr0 = none ∨ ∃ sp, spaceLen sp s = none) →
    (s.ctr0 = none ∧ exec .stream s = .refused (.noValue .ctr0)) ∨
    ∃ sp, spaceLen sp s = none ∧ exec .stream s = .refused (.noValue (.len sp))

/-- R152, R181, R184: `CHECK` advances when the three conditions hold; otherwise it takes the Precondition Violation in the same step,
with a cause bit for each condition that fails, `SEQ` unchanged and the internal locations without a value. -/
def Obligations.CheckTakesViolation : Prop :=
  encode .check = .word 0x01000000#32 ∧ rom[0]? = some 0x01000000#32 ∧
  ∀ (s : State) (k n i o : Nat), s.keyLen = some k → s.nonceLen = some n → s.inLen = some i → s.outLen = some o →
    ∃ t, exec .check s = .next t ∧
      (LengthsPass k n i o → t.seq = s.seq + 1#7 ∧ Frame [.seq] s t) ∧
      (¬ LengthsPass k n i o →
        t.status = .halt ∧ t.fault ≠ 0#3 ∧ t.fault.getLsbD 0 = decide (k ≠ 32) ∧ t.fault.getLsbD 1 = decide (n ≠ 12) ∧
        t.fault.getLsbD 2 = decide (i ≠ o) ∧ InternalCleared t ∧ Frame [.x, .sv, .ks, .ctr, .pos, .status, .fault] s t)

/-- R153: `BDONE t` goes to `t` when `POS = IN_LEN` and to the next index otherwise. -/
def Obligations.BdoneBranches : Prop :=
  rom[1]? = some 0x0C00005C#32 ∧
  ∀ (d : BitVec 8) (s : State) (p n : Nat), d.toNat ≤ 92 → s.pos = some p → s.inLen = some n →
    encode (.bdone d) = .word (BitVec.ofNat 32 (0x0C000000 + d.toNat)) ∧
    ∃ t, exec (.bdone d) s = .next t ∧ (p = n → t.seq.toNat = d.toNat) ∧ (p ≠ n → t.seq = s.seq + 1#7) ∧ Frame [.seq] s t

/-- R154: `XORCHUNK` writes, for each offset of the chunk, input xor keystream to `OUT`, and no other byte; then `POS` moves past the
chunk. The chunk lies in both buffers, as `CHECK` has established. `IN` and `OUT` may be the same bytes, whose values before the step
are the input (R52). The model's choices: an `OUT_LEN` without a value sets no range (DEDUCED, log entry 20), and a `POS` past `IN_LEN`
makes a chunk of no bytes (DESIGN CHOICE, log entry 11). -/
def Obligations.XorchunkWritesChunk : Prop :=
  encode .xorchunk = .word 0x0A000000#32 ∧ rom[89]? = some 0x0A000000#32 ∧
  ∀ (s : State) (p n : Nat) (ks : Vector Byte 64), s.pos = some p → s.inLen = some n →
    (∀ o, s.outLen = some o → p + min 64 (n - p) ≤ o) → (∀ k : Fin 64, k.val < min 64 (n - p) → s.ks[k] = some ks[k]) →
    s.placement ≠ .shifted →
    ∃ t, exec .xorchunk s = .next t ∧
      (∀ k : Fin 64, k.val < min 64 (n - p) →
        byteAt .out (p + k.val) t = byteAt .inp (p + k.val) s ^^^ ks[k]) ∧
      (∀ a, a < p ∨ p + min 64 (n - p) ≤ a → byteAt .out a t = byteAt .out a s) ∧
      t.pos = some (p + min 64 (n - p)) ∧ t.seq = s.seq + 1#7 ∧ Frame [.out, .pos, .seq] s t

/-- R155: `CTRINC` adds one to the Block Counter, and `0xFFFFFFFF` becomes 0. -/
def Obligations.CtrincWraps : Prop :=
  encode .ctrinc = .word 0x0B000000#32 ∧ rom[90]? = some 0x0B000000#32 ∧
  ∀ (s : State) (c : Word), s.ctr = some c → ∃ t c', exec .ctrinc s = .next t ∧ t.ctr = some c' ∧
    c'.toNat = (c.toNat + 1) % 2 ^ 32 ∧ t.seq = s.seq + 1#7 ∧ Frame [.ctr, .seq] s t

/-- R156: `JMP t` goes to `t`, in every state. -/
def Obligations.JmpGoesToTarget : Prop :=
  rom[91]? = some 0x0D000001#32 ∧
  ∀ (d : BitVec 8) (s : State), d.toNat ≤ 92 →
    encode (.jmp d) = .word (BitVec.ofNat 32 (0x0D000000 + d.toNat)) ∧
    ∃ t, exec (.jmp d) s = .next t ∧ t.seq.toNat = d.toNat ∧ Frame [.seq] s t

/-- R157: `END` completes the run: `DONE`, `SEQ` unchanged, the internal locations without a value. -/
def Obligations.EndCompletesRun : Prop :=
  encode .endrun = .word 0x0E000000#32 ∧ rom[92]? = some 0x0E000000#32 ∧
  ∀ s : State, ∃ t, exec .endrun s = .next t ∧ t.status = .done ∧ InternalCleared t ∧
    Frame [.x, .sv, .ks, .ctr, .pos, .status] s t

/-- R158: `stream_fn` keeps the length and is its own inverse. -/
def Obligations.StreamFnSelfInverse : Prop :=
  ∀ (key : Vector Byte 32) (nonce : Vector Byte 12) (c : Word) (inp : List Byte),
    (streamFn key nonce c inp).length = inp.length ∧ streamFn key nonce c (streamFn key nonce c inp) = inp

/-- R162: the output of a shorter input is the beginning of the output of a longer one. -/
def Obligations.StreamFnPrefix : Prop :=
  ∀ (key : Vector Byte 32) (nonce : Vector Byte 12) (c : Word) (inp more : List Byte),
    (streamFn key nonce c (inp ++ more)).take inp.length = streamFn key nonce c inp

/-- R151, R167, R168, R74: a run of the ROM over `n` bytes whose lengths pass the check takes `3 + 91 * ceil(n / 64)` steps, is busy before
the last of them, and ends in `DONE` with `stream_fn` of the key, the nonce, the starting counter and the input in `OUT`. -/
def Obligations.RunComputesStreamFn : Prop :=
  ∀ (s : State) (c0 : Word) (n : Nat), AtRunStart c0 n s → Undisturbed s →
    ∃ t, run (3 + 91 * chunks n) s = .next t ∧ t.status = .done ∧ t.fault = 0#3 ∧ t.seq = 92#7 ∧ InternalCleared t ∧
      bytesOf .out n t = streamFn (keyOf s) (nonceOf s) c0 (bytesOf .inp n s) ∧
      (∀ a, n ≤ a → byteAt .out a t = byteAt .out a s) ∧ InputsUnchanged s t ∧
      ∀ j, j < 3 + 91 * chunks n → ∃ u, run j s = .next u ∧ u.status = .busy

/-! ## Whole-machine rules -/

/-- R23: no instruction writes a word of `X` but those the rule names for it; `END` and a faulting `CHECK` leave every word without a
value; and no write or read of the host reaches `X`. -/
def Obligations.WordsWrittenOnlyWhereNamed : Prop :=
  (∀ (i : Instr) (s t : State) (k : Fin 16), exec i s = .next t → writesX i k = false →
    t.x[k] = s.x[k] ∨ ((i = .endrun ∨ i = .check) ∧ InternalCleared t)) ∧
  ∀ (m : HostMove) (s t : State), m ≠ .pass → m ≠ .reset → (∀ c, m ≠ .writeCmd c) → hostTurn m s = .next t → t.x = s.x

/-- R40, R47, R165: no instruction writes an operand register or a byte of `KEY`, `NONCE` or `IN`; `XORCHUNK` alone writes `OUT`, and only
at the chunk's offsets. Mapped onto the bytes of `OUT` (R52), `IN` is written with it, at those offsets and no others. -/
def Obligations.CoreWritesOnlyOut : Prop :=
  ∀ (i : Instr) (s t : State), exec i s = .next t → InputsUnchanged s t ∧
    (i ≠ .xorchunk → ∀ a, byteAt .out a t = byteAt .out a s) ∧
    (i = .xorchunk → ∃ p n, s.pos = some p ∧ s.inLen = some n ∧
      ∀ a, a < p ∨ p + min 64 (n - p) ≤ a → byteAt .out a t = byteAt .out a s) ∧
    (s.placement = .same → ∀ a, byteAt .inp a s = byteAt .out a s ∧ byteAt .inp a t = byteAt .out a t)

/-- R182, R28: only `CHECK` enters `HALT`, and only `CHECK` sets a bit of `FAULT`. -/
def Obligations.OnlyCheckRaises : Prop :=
  ∀ (i : Instr) (s t : State), exec i s = .next t →
    (s.status ≠ .halt → t.status = .halt → i = .check) ∧
    (t.fault ≠ s.fault → i = .check ∨ (i = .stream ∧ t.fault = 0#3))

/-- R186: a halted machine keeps `HALT`, `FAULT` and everything else through every step but the host's reset, which leaves it. The list of
the host's moves is the model's own (log entry 1). -/
def Obligations.HaltEndsByResetOnly : Prop :=
  ∀ s t : State, s.status = .halt → step s = .next t →
    (∃ rest, s.host = .reset :: rest ∧ t.status = .idle ∧ t.fault = 0#3) ∨
    ((∀ rest, s.host ≠ .reset :: rest) ∧ t = { s with host := s.host.tail })

/-- R185, R50: a run whose lengths fail the check is over after one step, in `HALT`, and stays there with every byte of every space as the
host left it. -/
def Obligations.ViolationStopsBeforeOutput : Prop :=
  ∀ (s : State) (k n i o : Nat), Undisturbed s → s.status = .busy → s.seq = 0#7 →
    s.keyLen = some k → s.nonceLen = some n → s.inLen = some i → s.outLen = some o → ¬ LengthsPass k n i o →
    ∀ j, 1 ≤ j → ∃ t, run j s = .next t ∧ t.status = .halt ∧ t.fault ≠ 0#3 ∧ t.seq = 0#7 ∧
      ∀ sp a, byteAt sp a t = byteAt sp a s

/-- R33, R194: an instruction that reads a location without a value is refused, by the name of such a location. The model's choices: which
of several such locations is named (DESIGN CHOICE, log entry 14), which the clause on `X` fixes as the first; and, in the clause on `KS`,
that an `OUT_LEN` without a value sets the chunk no range (DEDUCED, log entry 20). -/
def Obligations.ReadOfNoValueRefused : Prop :=
  (∀ s : State, s.ctr = none →
    exec .ldctr s = .refused (.noValue .ctr) ∧ exec .ctrinc s = .refused (.noValue .ctr)) ∧
  (∀ s : State, (∃ i : Fin 16, s.x[i] = none) → ∃ i : Fin 16, s.x[i] = none ∧ (∀ j : Fin 16, j < i → s.x[j].isSome = true) ∧
    exec .save s = .refused (.noValue (.x i)) ∧ exec .ser s = .refused (.noValue (.x i)) ∧
    exec .feedfwd s = .refused (.noValue (.x i))) ∧
  (∀ s : State, (∀ i : Fin 16, s.x[i].isSome = true) → (∃ i : Fin 16, s.sv[i] = none) →
    ∃ i : Fin 16, s.sv[i] = none ∧ exec .feedfwd s = .refused (.noValue (.s i))) ∧
  (∀ (a b c d : Fin 16) (s : State), pairwiseDifferent a b c d = true → (∃ i ∈ [a, b, c, d], s.x[i] = none) →
    ∃ i ∈ [a, b, c, d], s.x[i] = none ∧ exec (.qr a b c d) s = .refused (.noValue (.x i))) ∧
  (∀ (d : BitVec 8) (s : State), d.toNat ≤ 92 → s.pos = none →
    exec (.bdone d) s = .refused (.noValue .pos) ∧ exec .xorchunk s = .refused (.noValue .pos)) ∧
  (∀ (d : BitVec 8) (s : State) (p : Nat), d.toNat ≤ 92 → s.pos = some p → s.inLen = none →
    exec (.bdone d) s = .refused (.noValue (.len .inp)) ∧ exec .xorchunk s = .refused (.noValue (.len .inp))) ∧
  (∀ s : State, (∃ sp, spaceLen sp s = none) → ∃ sp, spaceLen sp s = none ∧ exec .check s = .refused (.noValue (.len sp))) ∧
  (∀ (s : State) (p n : Nat) (k : Fin 64), s.pos = some p → s.inLen = some n → (∀ o, s.outLen = some o → p + min 64 (n - p) ≤ o) →
    k.val < min 64 (n - p) → s.ks[k] = none → s.placement ≠ .shifted →
    ∃ j : Fin 64, s.ks[j] = none ∧ exec .xorchunk s = .refused (.noValue (.ks j)))

/-- R40, R48 (DEDUCED, log entry 5): a load that leaves its space faults at the first offset the space does not have. The spec says such an
offset does not exist and gives no behaviour for the access; the fault is the model's choice. -/
def Obligations.LoadOutsideSpaceFaults : Prop :=
  (∀ (s : State) (n : Nat), s.keyLen = some n → n < 32 → exec .ldkey s = .fault (.outsideSpace .key n)) ∧
  ∀ (s : State) (n : Nat), s.nonceLen = some n → n < 12 → exec .ldnonce s = .fault (.outsideSpace .nonce n)

/-! ## The host -/

/-- R193, R205, R206: the host writes operands and spaces in `IDLE` and `DONE`, each write changing that one thing; while `BUSY` and in
`HALT` it has no such move. Where `IN` and `OUT` are the same bytes (R52) a byte filled through one is
seen through the other. The model's choices: the list the moves are taken from (DESIGN CHOICE, log entry 1), the refusal of a move the host
does not have (DEDUCED, log entry 7), and that a fill may be at any offset, whatever the length register (DESIGN CHOICE, log entry 16). -/
def Obligations.HostWritesOutsideRuns : Prop :=
  (∀ (s : State) (rest : List HostMove) (v : Word), s.host = .writeCtr0 v :: rest → (s.status = .idle ∨ s.status = .done) →
    step s = .next { s with host := rest, ctr0 := some v }) ∧
  (∀ (s : State) (rest : List HostMove) (sp : Space) (n : Nat), s.host = .writeLen sp n :: rest →
    (s.status = .idle ∨ s.status = .done) → ∃ t, step s = .next t ∧ t.host = rest ∧ t.ctr0 = s.ctr0 ∧
      (∀ sq, spaceLen sq t = if sq = sp then some n else spaceLen sq s) ∧ (∀ sq a, byteAt sq a t = byteAt sq a s) ∧
      t.placement = s.placement ∧ t.testProgram = s.testProgram ∧ ∀ p, Unchanged s t p) ∧
  (∀ (s : State) (rest : List HostMove) (sp : Space) (a : Nat) (b : Byte), s.host = .writeByte sp a b :: rest →
    (s.status = .idle ∨ s.status = .done) → (sp = .key ∨ sp = .nonce ∨ s.placement ≠ .shifted) →
      ∃ t, step s = .next t ∧ t.host = rest ∧ t.ctr0 = s.ctr0 ∧ (∀ sq, spaceLen sq t = spaceLen sq s) ∧
      (∀ sq a', byteAt sq a' t = if SharesBytes s sp sq ∧ a' = a then b else byteAt sq a' s) ∧
      t.placement = s.placement ∧ t.testProgram = s.testProgram ∧ ∀ p, p ≠ .out → Unchanged s t p) ∧
  ∀ (s : State) (rest : List HostMove) (m : HostMove), s.host = m :: rest → (s.status = .busy ∨ s.status = .halt) →
    ((∃ v, m = .writeCtr0 v) ∨ (∃ sp n, m = .writeLen sp n) ∨ ∃ sp a b, m = .writeByte sp a b) →
    step s = .refused (.noSuchMove m)

/-- R26, R27, R193, R54, R206: what the host reads: `STATUS` by its four codes, `FAULT` as it stands, an operand register as it was written,
a byte of `OUT` in `DONE`; every read, in every `STATUS`, changes nothing but that the move is made. `CMD` is write-only and a read of it is
refused (DEDUCED, log entry 7). The model's choices: a register that nothing has written gives no value (DEDUCED, log entry 3), a read of
`OUT` in another `STATUS` than `DONE` goes on and gives a free value, of which nothing is said here (DESIGN CHOICE, log entry 21), a read
past `OUT_LEN` faults (DEDUCED, log entry 5), and an `OUT_LEN` without a value sets it no range (DEDUCED, log entry 20). -/
def Obligations.HostReads : Prop :=
  (∀ s : State, hostReadReg .status s =
    .next (some (match s.status with | .idle => 0 | .busy => 1 | .done => 2 | .halt => 3))) ∧
  (∀ s : State, hostReadReg .fault s = .next (some s.fault.toNat) ∧ hostReadReg .cmd s = .refused .writeOnly) ∧
  (∀ s : State, (∀ v, s.ctr0 = some v → hostReadReg .ctr0 s = .next (some v.toNat)) ∧
    (s.ctr0 = none → hostReadReg .ctr0 s = .next none)) ∧
  (∀ s : State, hostReadReg .keyLen s = .next s.keyLen ∧ hostReadReg .nonceLen s = .next s.nonceLen ∧
    hostReadReg .inLen s = .next s.inLen ∧ hostReadReg .outLen s = .next s.outLen) ∧
  (∀ (s : State) (a : Nat), s.status = .done → (∀ n, s.outLen = some n → a < n) → hostReadOut a s = .next (byteAt .out a s)) ∧
  (∀ (s : State) (r : HostReg) (rest : List HostMove), s.host = .readReg r :: rest →
    step s = if r = .cmd then .refused .writeOnly else .next { s with host := rest }) ∧
  ∀ (s : State) (a : Nat) (rest : List HostMove), s.host = .readOut a :: rest →
    ((∀ n, s.outLen = some n → a < n) → step s = .next { s with host := rest }) ∧
    ∀ n, s.outLen = some n → n ≤ a → step s = .fault (.outsideSpace .out a)

/-- R200, R37: the reset, in any `STATUS`, gives every element of state its reset value and touches no operand space and no mapping. -/
def Obligations.ResetRestoresState : Prop :=
  ∀ (s : State) (rest : List HostMove), s.host = .reset :: rest → ∃ t, step s = .next t ∧
    t.status = .idle ∧ t.fault = 0#3 ∧ t.seq = 0#7 ∧ InternalCleared t ∧ t.ctr0 = none ∧ (∀ sp, spaceLen sp t = none) ∧
    (∀ sp a, byteAt sp a t = byteAt sp a s) ∧ t.placement = s.placement ∧ t.host = rest

/-- R167, R201: outside a run the CORE takes no step: with no host move to come nothing changes. The unchanged step is the model's way to
say it (log entry 6). -/
def Obligations.NoStepOutsideRun : Prop :=
  ∀ s : State, s.host = [] → s.status ≠ .busy → step s = .next s

/-! ## Invariants -/

/-- Every step keeps the machine's invariant: canonical memories, `FAULT` non-zero exactly in `HALT` (R26), no value in the internal
locations outside a run (R33), operands, counter and position held in a run (R34, R150), `POS` at most `IN_LEN` (R153), and no run on a shifted overlap (R52). -/
def Obligations.StepKeepsInv : Prop :=
  ∀ s t : State, Inv s → step s = .next t → Inv t

/-- The state after reset meets the machine's invariant and the schedule's (R37, R200). -/
def Obligations.ResetMeetsInv : Prop :=
  Inv State.reset ∧ ScheduleInv State.reset

/-- R33, R159, R169, R194: with the ROM as the program and the CORE to move, a step from a point of the schedule is never a fault or a
refusal, and leads to a point of the schedule; so no micro-operation of the ROM reads a location without a value, and chunk `i` uses
the counter `CTR0 + i`. -/
def Obligations.ScheduleNeverStops : Prop :=
  ∀ s : State, ScheduleInv s → s.host = [] → ∃ t, step s = .next t ∧ ScheduleInv t

/-- Every step keeps the schedule's invariant, the host's moves included, and no step from it is a fault but a host read of
`OUT`. -/
def Obligations.StepKeepsScheduleInv : Prop :=
  (∀ s t : State, ScheduleInv s → step s = .next t → ScheduleInv t) ∧
  ∀ (s : State) (r : Fault), ScheduleInv s → step s = .fault r → ∃ a rest, s.host = .readOut a :: rest

/-! ## The mapping of `IN` and `OUT` -/

/-- R52, D13, U11: a run in which `IN` and `OUT` are the same bytes gives, in the same number of steps, the result of the run in which they
are apart, with the input overwritten by it. -/
def Obligations.InPlaceSameResult : Prop :=
  ∀ (s : State) (c0 : Word) (n : Nat), AtRunStart c0 n s → Undisturbed s → s.placement = .apart →
    ∃ t u, run (3 + 91 * chunks n) s = .next t ∧ run (3 + 91 * chunks n) { s with placement := .same } = .next u ∧
      t.status = .done ∧ u.status = .done ∧ bytesOf .out n u = bytesOf .out n t ∧ bytesOf .inp n u = bytesOf .out n t ∧
      bytesOf .inp n t = bytesOf .inp n s ∧ ∀ a, n ≤ a → byteAt .inp a u = byteAt .inp a s

/-- R52, R209, D13, U10 (log entry 18): where `OUT` overlaps `IN` at a shifted offset, a `STREAM` that would start a run, an `XORCHUNK` and
a host fill of `IN` or `OUT` are refused by name. The spec says a model refuses the mapping; where it does so is the model's choice. -/
def Obligations.ShiftedOverlapRefused : Prop :=
  (∀ (s : State) (c : Word), s.placement = .shifted → (s.status = .idle ∨ s.status = .done) → s.ctr0 = some c →
    (∀ sp, (spaceLen sp s).isSome = true) → exec .stream s = .refused .shiftedOverlap) ∧
  (∀ (s : State) (p n : Nat), s.placement = .shifted → s.pos = some p → s.inLen = some n →
    exec .xorchunk s = .refused .shiftedOverlap) ∧
  ∀ (s : State) (rest : List HostMove) (sp : Space) (a : Nat) (b : Byte), s.placement = .shifted →
    s.host = .writeByte sp a b :: rest → (s.status = .idle ∨ s.status = .done) → (sp = .inp ∨ sp = .out) →
    step s = .refused .shiftedOverlap
end

