-- ==== Sys2Proof/Laws/State.lean ====
section
/-! SUPPORT. What each shared update does to each field of the state, one lemma for each. -/

namespace Sys2Proof.Machine

/-! ## `advance` -/

@[simp] theorem advance_x (s : State) : (advance s).x = s.x := rfl
@[simp] theorem advance_sv (s : State) : (advance s).sv = s.sv := rfl
@[simp] theorem advance_ks (s : State) : (advance s).ks = s.ks := rfl
@[simp] theorem advance_ctr (s : State) : (advance s).ctr = s.ctr := rfl
@[simp] theorem advance_pos (s : State) : (advance s).pos = s.pos := rfl
@[simp] theorem advance_seq (s : State) : (advance s).seq = s.seq + 1#7 := rfl
@[simp] theorem advance_status (s : State) : (advance s).status = s.status := rfl
@[simp] theorem advance_fault (s : State) : (advance s).fault = s.fault := rfl
@[simp] theorem advance_ctr0 (s : State) : (advance s).ctr0 = s.ctr0 := rfl
@[simp] theorem advance_keyLen (s : State) : (advance s).keyLen = s.keyLen := rfl
@[simp] theorem advance_nonceLen (s : State) : (advance s).nonceLen = s.nonceLen := rfl
@[simp] theorem advance_inLen (s : State) : (advance s).inLen = s.inLen := rfl
@[simp] theorem advance_outLen (s : State) : (advance s).outLen = s.outLen := rfl
@[simp] theorem advance_key (s : State) : (advance s).key = s.key := rfl
@[simp] theorem advance_nonce (s : State) : (advance s).nonce = s.nonce := rfl
@[simp] theorem advance_inp (s : State) : (advance s).inp = s.inp := rfl
@[simp] theorem advance_out (s : State) : (advance s).out = s.out := rfl
@[simp] theorem advance_placement (s : State) : (advance s).placement = s.placement := rfl
@[simp] theorem advance_host (s : State) : (advance s).host = s.host := rfl
@[simp] theorem advance_testProgram (s : State) : (advance s).testProgram = s.testProgram := rfl

/-! ## `goTo` -/

@[simp] theorem goTo_x (t : BitVec 8) (s : State) : (goTo t s).x = s.x := rfl
@[simp] theorem goTo_sv (t : BitVec 8) (s : State) : (goTo t s).sv = s.sv := rfl
@[simp] theorem goTo_ks (t : BitVec 8) (s : State) : (goTo t s).ks = s.ks := rfl
@[simp] theorem goTo_ctr (t : BitVec 8) (s : State) : (goTo t s).ctr = s.ctr := rfl
@[simp] theorem goTo_pos (t : BitVec 8) (s : State) : (goTo t s).pos = s.pos := rfl
@[simp] theorem goTo_seq (t : BitVec 8) (s : State) : (goTo t s).seq = t.setWidth 7 := rfl
@[simp] theorem goTo_status (t : BitVec 8) (s : State) : (goTo t s).status = s.status := rfl
@[simp] theorem goTo_fault (t : BitVec 8) (s : State) : (goTo t s).fault = s.fault := rfl
@[simp] theorem goTo_ctr0 (t : BitVec 8) (s : State) : (goTo t s).ctr0 = s.ctr0 := rfl
@[simp] theorem goTo_keyLen (t : BitVec 8) (s : State) : (goTo t s).keyLen = s.keyLen := rfl
@[simp] theorem goTo_nonceLen (t : BitVec 8) (s : State) : (goTo t s).nonceLen = s.nonceLen := rfl
@[simp] theorem goTo_inLen (t : BitVec 8) (s : State) : (goTo t s).inLen = s.inLen := rfl
@[simp] theorem goTo_outLen (t : BitVec 8) (s : State) : (goTo t s).outLen = s.outLen := rfl
@[simp] theorem goTo_key (t : BitVec 8) (s : State) : (goTo t s).key = s.key := rfl
@[simp] theorem goTo_nonce (t : BitVec 8) (s : State) : (goTo t s).nonce = s.nonce := rfl
@[simp] theorem goTo_inp (t : BitVec 8) (s : State) : (goTo t s).inp = s.inp := rfl
@[simp] theorem goTo_out (t : BitVec 8) (s : State) : (goTo t s).out = s.out := rfl
@[simp] theorem goTo_placement (t : BitVec 8) (s : State) : (goTo t s).placement = s.placement := rfl
@[simp] theorem goTo_host (t : BitVec 8) (s : State) : (goTo t s).host = s.host := rfl
@[simp] theorem goTo_testProgram (t : BitVec 8) (s : State) : (goTo t s).testProgram = s.testProgram := rfl

/-! ## `writeX` -/

@[simp] theorem writeX_x (i : Fin 16) (w : Word) (s : State) : (writeX i w s).x = s.x.set i.val (some w) := rfl
@[simp] theorem writeX_sv (i : Fin 16) (w : Word) (s : State) : (writeX i w s).sv = s.sv := rfl
@[simp] theorem writeX_ks (i : Fin 16) (w : Word) (s : State) : (writeX i w s).ks = s.ks := rfl
@[simp] theorem writeX_ctr (i : Fin 16) (w : Word) (s : State) : (writeX i w s).ctr = s.ctr := rfl
@[simp] theorem writeX_pos (i : Fin 16) (w : Word) (s : State) : (writeX i w s).pos = s.pos := rfl
@[simp] theorem writeX_seq (i : Fin 16) (w : Word) (s : State) : (writeX i w s).seq = s.seq := rfl
@[simp] theorem writeX_status (i : Fin 16) (w : Word) (s : State) : (writeX i w s).status = s.status := rfl
@[simp] theorem writeX_fault (i : Fin 16) (w : Word) (s : State) : (writeX i w s).fault = s.fault := rfl
@[simp] theorem writeX_ctr0 (i : Fin 16) (w : Word) (s : State) : (writeX i w s).ctr0 = s.ctr0 := rfl
@[simp] theorem writeX_keyLen (i : Fin 16) (w : Word) (s : State) : (writeX i w s).keyLen = s.keyLen := rfl
@[simp] theorem writeX_nonceLen (i : Fin 16) (w : Word) (s : State) : (writeX i w s).nonceLen = s.nonceLen := rfl
@[simp] theorem writeX_inLen (i : Fin 16) (w : Word) (s : State) : (writeX i w s).inLen = s.inLen := rfl
@[simp] theorem writeX_outLen (i : Fin 16) (w : Word) (s : State) : (writeX i w s).outLen = s.outLen := rfl
@[simp] theorem writeX_key (i : Fin 16) (w : Word) (s : State) : (writeX i w s).key = s.key := rfl
@[simp] theorem writeX_nonce (i : Fin 16) (w : Word) (s : State) : (writeX i w s).nonce = s.nonce := rfl
@[simp] theorem writeX_inp (i : Fin 16) (w : Word) (s : State) : (writeX i w s).inp = s.inp := rfl
@[simp] theorem writeX_out (i : Fin 16) (w : Word) (s : State) : (writeX i w s).out = s.out := rfl
@[simp] theorem writeX_placement (i : Fin 16) (w : Word) (s : State) : (writeX i w s).placement = s.placement := rfl
@[simp] theorem writeX_host (i : Fin 16) (w : Word) (s : State) : (writeX i w s).host = s.host := rfl
@[simp] theorem writeX_testProgram (i : Fin 16) (w : Word) (s : State) : (writeX i w s).testProgram = s.testProgram := rfl

/-! ## `clearInternal` -/

@[simp] theorem clearInternal_x (s : State) : (clearInternal s).x = Vector.replicate 16 none := rfl
@[simp] theorem clearInternal_sv (s : State) : (clearInternal s).sv = Vector.replicate 16 none := rfl
@[simp] theorem clearInternal_ks (s : State) : (clearInternal s).ks = Vector.replicate 64 none := rfl
@[simp] theorem clearInternal_ctr (s : State) : (clearInternal s).ctr = none := rfl
@[simp] theorem clearInternal_pos (s : State) : (clearInternal s).pos = none := rfl
@[simp] theorem clearInternal_seq (s : State) : (clearInternal s).seq = s.seq := rfl
@[simp] theorem clearInternal_status (s : State) : (clearInternal s).status = s.status := rfl
@[simp] theorem clearInternal_fault (s : State) : (clearInternal s).fault = s.fault := rfl
@[simp] theorem clearInternal_ctr0 (s : State) : (clearInternal s).ctr0 = s.ctr0 := rfl
@[simp] theorem clearInternal_keyLen (s : State) : (clearInternal s).keyLen = s.keyLen := rfl
@[simp] theorem clearInternal_nonceLen (s : State) : (clearInternal s).nonceLen = s.nonceLen := rfl
@[simp] theorem clearInternal_inLen (s : State) : (clearInternal s).inLen = s.inLen := rfl
@[simp] theorem clearInternal_outLen (s : State) : (clearInternal s).outLen = s.outLen := rfl
@[simp] theorem clearInternal_key (s : State) : (clearInternal s).key = s.key := rfl
@[simp] theorem clearInternal_nonce (s : State) : (clearInternal s).nonce = s.nonce := rfl
@[simp] theorem clearInternal_inp (s : State) : (clearInternal s).inp = s.inp := rfl
@[simp] theorem clearInternal_out (s : State) : (clearInternal s).out = s.out := rfl
@[simp] theorem clearInternal_placement (s : State) : (clearInternal s).placement = s.placement := rfl
@[simp] theorem clearInternal_host (s : State) : (clearInternal s).host = s.host := rfl
@[simp] theorem clearInternal_testProgram (s : State) : (clearInternal s).testProgram = s.testProgram := rfl

/-! ## `raiseViolation` -/

@[simp] theorem raiseViolation_x (c : BitVec 3) (s : State) : (raiseViolation c s).x = Vector.replicate 16 none := rfl
@[simp] theorem raiseViolation_sv (c : BitVec 3) (s : State) : (raiseViolation c s).sv = Vector.replicate 16 none := rfl
@[simp] theorem raiseViolation_ks (c : BitVec 3) (s : State) : (raiseViolation c s).ks = Vector.replicate 64 none := rfl
@[simp] theorem raiseViolation_ctr (c : BitVec 3) (s : State) : (raiseViolation c s).ctr = none := rfl
@[simp] theorem raiseViolation_pos (c : BitVec 3) (s : State) : (raiseViolation c s).pos = none := rfl
@[simp] theorem raiseViolation_seq (c : BitVec 3) (s : State) : (raiseViolation c s).seq = s.seq := rfl
@[simp] theorem raiseViolation_status (c : BitVec 3) (s : State) : (raiseViolation c s).status = .halt := rfl
@[simp] theorem raiseViolation_fault (c : BitVec 3) (s : State) : (raiseViolation c s).fault = c := rfl
@[simp] theorem raiseViolation_ctr0 (c : BitVec 3) (s : State) : (raiseViolation c s).ctr0 = s.ctr0 := rfl
@[simp] theorem raiseViolation_keyLen (c : BitVec 3) (s : State) : (raiseViolation c s).keyLen = s.keyLen := rfl
@[simp] theorem raiseViolation_nonceLen (c : BitVec 3) (s : State) : (raiseViolation c s).nonceLen = s.nonceLen := rfl
@[simp] theorem raiseViolation_inLen (c : BitVec 3) (s : State) : (raiseViolation c s).inLen = s.inLen := rfl
@[simp] theorem raiseViolation_outLen (c : BitVec 3) (s : State) : (raiseViolation c s).outLen = s.outLen := rfl
@[simp] theorem raiseViolation_key (c : BitVec 3) (s : State) : (raiseViolation c s).key = s.key := rfl
@[simp] theorem raiseViolation_nonce (c : BitVec 3) (s : State) : (raiseViolation c s).nonce = s.nonce := rfl
@[simp] theorem raiseViolation_inp (c : BitVec 3) (s : State) : (raiseViolation c s).inp = s.inp := rfl
@[simp] theorem raiseViolation_out (c : BitVec 3) (s : State) : (raiseViolation c s).out = s.out := rfl
@[simp] theorem raiseViolation_placement (c : BitVec 3) (s : State) : (raiseViolation c s).placement = s.placement := rfl
@[simp] theorem raiseViolation_host (c : BitVec 3) (s : State) : (raiseViolation c s).host = s.host := rfl
@[simp] theorem raiseViolation_testProgram (c : BitVec 3) (s : State) : (raiseViolation c s).testProgram = s.testProgram := rfl

/-! ## `finishRun` -/

@[simp] theorem finishRun_x (s : State) : (finishRun s).x = Vector.replicate 16 none := rfl
@[simp] theorem finishRun_sv (s : State) : (finishRun s).sv = Vector.replicate 16 none := rfl
@[simp] theorem finishRun_ks (s : State) : (finishRun s).ks = Vector.replicate 64 none := rfl
@[simp] theorem finishRun_ctr (s : State) : (finishRun s).ctr = none := rfl
@[simp] theorem finishRun_pos (s : State) : (finishRun s).pos = none := rfl
@[simp] theorem finishRun_seq (s : State) : (finishRun s).seq = s.seq := rfl
@[simp] theorem finishRun_status (s : State) : (finishRun s).status = .done := rfl
@[simp] theorem finishRun_fault (s : State) : (finishRun s).fault = s.fault := rfl
@[simp] theorem finishRun_ctr0 (s : State) : (finishRun s).ctr0 = s.ctr0 := rfl
@[simp] theorem finishRun_keyLen (s : State) : (finishRun s).keyLen = s.keyLen := rfl
@[simp] theorem finishRun_nonceLen (s : State) : (finishRun s).nonceLen = s.nonceLen := rfl
@[simp] theorem finishRun_inLen (s : State) : (finishRun s).inLen = s.inLen := rfl
@[simp] theorem finishRun_outLen (s : State) : (finishRun s).outLen = s.outLen := rfl
@[simp] theorem finishRun_key (s : State) : (finishRun s).key = s.key := rfl
@[simp] theorem finishRun_nonce (s : State) : (finishRun s).nonce = s.nonce := rfl
@[simp] theorem finishRun_inp (s : State) : (finishRun s).inp = s.inp := rfl
@[simp] theorem finishRun_out (s : State) : (finishRun s).out = s.out := rfl
@[simp] theorem finishRun_placement (s : State) : (finishRun s).placement = s.placement := rfl
@[simp] theorem finishRun_host (s : State) : (finishRun s).host = s.host := rfl
@[simp] theorem finishRun_testProgram (s : State) : (finishRun s).testProgram = s.testProgram := rfl

/-! ## `startRun` -/

@[simp] theorem startRun_x (c : Word) (s : State) : (startRun c s).x = s.x := rfl
@[simp] theorem startRun_sv (c : Word) (s : State) : (startRun c s).sv = s.sv := rfl
@[simp] theorem startRun_ks (c : Word) (s : State) : (startRun c s).ks = s.ks := rfl
@[simp] theorem startRun_ctr (c : Word) (s : State) : (startRun c s).ctr = some c := rfl
@[simp] theorem startRun_pos (c : Word) (s : State) : (startRun c s).pos = some 0 := rfl
@[simp] theorem startRun_seq (c : Word) (s : State) : (startRun c s).seq = 0#7 := rfl
@[simp] theorem startRun_status (c : Word) (s : State) : (startRun c s).status = .busy := rfl
@[simp] theorem startRun_fault (c : Word) (s : State) : (startRun c s).fault = 0#3 := rfl
@[simp] theorem startRun_ctr0 (c : Word) (s : State) : (startRun c s).ctr0 = s.ctr0 := rfl
@[simp] theorem startRun_keyLen (c : Word) (s : State) : (startRun c s).keyLen = s.keyLen := rfl
@[simp] theorem startRun_nonceLen (c : Word) (s : State) : (startRun c s).nonceLen = s.nonceLen := rfl
@[simp] theorem startRun_inLen (c : Word) (s : State) : (startRun c s).inLen = s.inLen := rfl
@[simp] theorem startRun_outLen (c : Word) (s : State) : (startRun c s).outLen = s.outLen := rfl
@[simp] theorem startRun_key (c : Word) (s : State) : (startRun c s).key = s.key := rfl
@[simp] theorem startRun_nonce (c : Word) (s : State) : (startRun c s).nonce = s.nonce := rfl
@[simp] theorem startRun_inp (c : Word) (s : State) : (startRun c s).inp = s.inp := rfl
@[simp] theorem startRun_out (c : Word) (s : State) : (startRun c s).out = s.out := rfl
@[simp] theorem startRun_placement (c : Word) (s : State) : (startRun c s).placement = s.placement := rfl
@[simp] theorem startRun_host (c : Word) (s : State) : (startRun c s).host = s.host := rfl
@[simp] theorem startRun_testProgram (c : Word) (s : State) : (startRun c s).testProgram = s.testProgram := rfl

/-! ## `resetCore` -/

@[simp] theorem resetCore_x (s : State) : (resetCore s).x = State.reset.x := rfl
@[simp] theorem resetCore_sv (s : State) : (resetCore s).sv = State.reset.sv := rfl
@[simp] theorem resetCore_ks (s : State) : (resetCore s).ks = State.reset.ks := rfl
@[simp] theorem resetCore_ctr (s : State) : (resetCore s).ctr = State.reset.ctr := rfl
@[simp] theorem resetCore_pos (s : State) : (resetCore s).pos = State.reset.pos := rfl
@[simp] theorem resetCore_seq (s : State) : (resetCore s).seq = State.reset.seq := rfl
@[simp] theorem resetCore_status (s : State) : (resetCore s).status = State.reset.status := rfl
@[simp] theorem resetCore_fault (s : State) : (resetCore s).fault = State.reset.fault := rfl
@[simp] theorem resetCore_ctr0 (s : State) : (resetCore s).ctr0 = State.reset.ctr0 := rfl
@[simp] theorem resetCore_keyLen (s : State) : (resetCore s).keyLen = State.reset.keyLen := rfl
@[simp] theorem resetCore_nonceLen (s : State) : (resetCore s).nonceLen = State.reset.nonceLen := rfl
@[simp] theorem resetCore_inLen (s : State) : (resetCore s).inLen = State.reset.inLen := rfl
@[simp] theorem resetCore_outLen (s : State) : (resetCore s).outLen = State.reset.outLen := rfl
@[simp] theorem resetCore_key (s : State) : (resetCore s).key = s.key := rfl
@[simp] theorem resetCore_nonce (s : State) : (resetCore s).nonce = s.nonce := rfl
@[simp] theorem resetCore_inp (s : State) : (resetCore s).inp = s.inp := rfl
@[simp] theorem resetCore_out (s : State) : (resetCore s).out = s.out := rfl
@[simp] theorem resetCore_placement (s : State) : (resetCore s).placement = s.placement := rfl
@[simp] theorem resetCore_host (s : State) : (resetCore s).host = s.host := rfl
@[simp] theorem resetCore_testProgram (s : State) : (resetCore s).testProgram = s.testProgram := rfl

/-! ## `setMem`, `setByte` and `setLen` -/

@[simp] theorem setMem_x (sp : Space) (m : Memory) (s : State) : (setMem sp m s).x = s.x := by cases sp <;> rfl
@[simp] theorem setMem_sv (sp : Space) (m : Memory) (s : State) : (setMem sp m s).sv = s.sv := by cases sp <;> rfl
@[simp] theorem setMem_ks (sp : Space) (m : Memory) (s : State) : (setMem sp m s).ks = s.ks := by cases sp <;> rfl
@[simp] theorem setMem_ctr (sp : Space) (m : Memory) (s : State) : (setMem sp m s).ctr = s.ctr := by cases sp <;> rfl
@[simp] theorem setMem_pos (sp : Space) (m : Memory) (s : State) : (setMem sp m s).pos = s.pos := by cases sp <;> rfl
@[simp] theorem setMem_seq (sp : Space) (m : Memory) (s : State) : (setMem sp m s).seq = s.seq := by cases sp <;> rfl
@[simp] theorem setMem_status (sp : Space) (m : Memory) (s : State) : (setMem sp m s).status = s.status := by cases sp <;> rfl
@[simp] theorem setMem_fault (sp : Space) (m : Memory) (s : State) : (setMem sp m s).fault = s.fault := by cases sp <;> rfl
@[simp] theorem setMem_ctr0 (sp : Space) (m : Memory) (s : State) : (setMem sp m s).ctr0 = s.ctr0 := by cases sp <;> rfl
@[simp] theorem setMem_keyLen (sp : Space) (m : Memory) (s : State) : (setMem sp m s).keyLen = s.keyLen := by cases sp <;> rfl
@[simp] theorem setMem_nonceLen (sp : Space) (m : Memory) (s : State) : (setMem sp m s).nonceLen = s.nonceLen := by cases sp <;> rfl
@[simp] theorem setMem_inLen (sp : Space) (m : Memory) (s : State) : (setMem sp m s).inLen = s.inLen := by cases sp <;> rfl
@[simp] theorem setMem_outLen (sp : Space) (m : Memory) (s : State) : (setMem sp m s).outLen = s.outLen := by cases sp <;> rfl
@[simp] theorem setMem_placement (sp : Space) (m : Memory) (s : State) : (setMem sp m s).placement = s.placement := by cases sp <;> rfl
@[simp] theorem setMem_host (sp : Space) (m : Memory) (s : State) : (setMem sp m s).host = s.host := by cases sp <;> rfl
@[simp] theorem setMem_testProgram (sp : Space) (m : Memory) (s : State) : (setMem sp m s).testProgram = s.testProgram := by cases sp <;> rfl

@[simp] theorem setByte_x (sp : Space) (a : Nat) (b : Byte) (s : State) : (setByte sp a b s).x = s.x := setMem_x _ _ s
@[simp] theorem setByte_sv (sp : Space) (a : Nat) (b : Byte) (s : State) : (setByte sp a b s).sv = s.sv := setMem_sv _ _ s
@[simp] theorem setByte_ks (sp : Space) (a : Nat) (b : Byte) (s : State) : (setByte sp a b s).ks = s.ks := setMem_ks _ _ s
@[simp] theorem setByte_ctr (sp : Space) (a : Nat) (b : Byte) (s : State) : (setByte sp a b s).ctr = s.ctr := setMem_ctr _ _ s
@[simp] theorem setByte_pos (sp : Space) (a : Nat) (b : Byte) (s : State) : (setByte sp a b s).pos = s.pos := setMem_pos _ _ s
@[simp] theorem setByte_seq (sp : Space) (a : Nat) (b : Byte) (s : State) : (setByte sp a b s).seq = s.seq := setMem_seq _ _ s
@[simp] theorem setByte_status (sp : Space) (a : Nat) (b : Byte) (s : State) : (setByte sp a b s).status = s.status := setMem_status _ _ s
@[simp] theorem setByte_fault (sp : Space) (a : Nat) (b : Byte) (s : State) : (setByte sp a b s).fault = s.fault := setMem_fault _ _ s
@[simp] theorem setByte_ctr0 (sp : Space) (a : Nat) (b : Byte) (s : State) : (setByte sp a b s).ctr0 = s.ctr0 := setMem_ctr0 _ _ s
@[simp] theorem setByte_keyLen (sp : Space) (a : Nat) (b : Byte) (s : State) : (setByte sp a b s).keyLen = s.keyLen := setMem_keyLen _ _ s
@[simp] theorem setByte_nonceLen (sp : Space) (a : Nat) (b : Byte) (s : State) : (setByte sp a b s).nonceLen = s.nonceLen := setMem_nonceLen _ _ s
@[simp] theorem setByte_inLen (sp : Space) (a : Nat) (b : Byte) (s : State) : (setByte sp a b s).inLen = s.inLen := setMem_inLen _ _ s
@[simp] theorem setByte_outLen (sp : Space) (a : Nat) (b : Byte) (s : State) : (setByte sp a b s).outLen = s.outLen := setMem_outLen _ _ s
@[simp] theorem setByte_placement (sp : Space) (a : Nat) (b : Byte) (s : State) : (setByte sp a b s).placement = s.placement := setMem_placement _ _ s
@[simp] theorem setByte_host (sp : Space) (a : Nat) (b : Byte) (s : State) : (setByte sp a b s).host = s.host := setMem_host _ _ s
@[simp] theorem setByte_testProgram (sp : Space) (a : Nat) (b : Byte) (s : State) : (setByte sp a b s).testProgram = s.testProgram := setMem_testProgram _ _ s

@[simp] theorem setLen_x (sp : Space) (n : Nat) (s : State) : (setLen sp n s).x = s.x := by cases sp <;> rfl
@[simp] theorem setLen_sv (sp : Space) (n : Nat) (s : State) : (setLen sp n s).sv = s.sv := by cases sp <;> rfl
@[simp] theorem setLen_ks (sp : Space) (n : Nat) (s : State) : (setLen sp n s).ks = s.ks := by cases sp <;> rfl
@[simp] theorem setLen_ctr (sp : Space) (n : Nat) (s : State) : (setLen sp n s).ctr = s.ctr := by cases sp <;> rfl
@[simp] theorem setLen_pos (sp : Space) (n : Nat) (s : State) : (setLen sp n s).pos = s.pos := by cases sp <;> rfl
@[simp] theorem setLen_seq (sp : Space) (n : Nat) (s : State) : (setLen sp n s).seq = s.seq := by cases sp <;> rfl
@[simp] theorem setLen_status (sp : Space) (n : Nat) (s : State) : (setLen sp n s).status = s.status := by cases sp <;> rfl
@[simp] theorem setLen_fault (sp : Space) (n : Nat) (s : State) : (setLen sp n s).fault = s.fault := by cases sp <;> rfl
@[simp] theorem setLen_ctr0 (sp : Space) (n : Nat) (s : State) : (setLen sp n s).ctr0 = s.ctr0 := by cases sp <;> rfl
@[simp] theorem setLen_key (sp : Space) (n : Nat) (s : State) : (setLen sp n s).key = s.key := by cases sp <;> rfl
@[simp] theorem setLen_nonce (sp : Space) (n : Nat) (s : State) : (setLen sp n s).nonce = s.nonce := by cases sp <;> rfl
@[simp] theorem setLen_inp (sp : Space) (n : Nat) (s : State) : (setLen sp n s).inp = s.inp := by cases sp <;> rfl
@[simp] theorem setLen_out (sp : Space) (n : Nat) (s : State) : (setLen sp n s).out = s.out := by cases sp <;> rfl
@[simp] theorem setLen_placement (sp : Space) (n : Nat) (s : State) : (setLen sp n s).placement = s.placement := by cases sp <;> rfl
@[simp] theorem setLen_host (sp : Space) (n : Nat) (s : State) : (setLen sp n s).host = s.host := by cases sp <;> rfl
@[simp] theorem setLen_testProgram (sp : Space) (n : Nat) (s : State) : (setLen sp n s).testProgram = s.testProgram := by cases sp <;> rfl

/-! ## Where a space's bytes are held -/

@[simp] theorem home_key (s : State) : home .key s = .key := rfl
@[simp] theorem home_nonce (s : State) : home .nonce s = .nonce := rfl
@[simp] theorem home_inp (s : State) : home .inp s = .inp := rfl
theorem home_out_of_same {s : State} (h : s.placement = .same) : home .out s = .inp := if_pos ⟨rfl, h⟩
theorem home_out_of_ne {s : State} (h : s.placement ≠ .same) : home .out s = .out := if_neg fun e => h e.2

/-- Where the spaces are held is told by the mapping alone. -/
theorem home_congr {s t : State} (h : t.placement = s.placement) (sp : Space) : home sp t = home sp s := by
  simp only [home, h]

@[simp] theorem spaceMem_key (s : State) : spaceMem .key s = s.key := rfl
@[simp] theorem spaceMem_nonce (s : State) : spaceMem .nonce s = s.nonce := rfl
@[simp] theorem spaceMem_inp (s : State) : spaceMem .inp s = s.inp := rfl

/-- Replacing a memory replaces that one. -/
theorem heldMem_setMem (sp sq : Space) (m : Memory) (s : State) :
    heldMem sq (setMem sp m s) = if sq = sp then m else heldMem sq s := by
  cases sp <;> cases sq <;> rfl

/-- Storing a byte of a space writes the memory that holds it and no other. -/
theorem spaceMem_setByte (sp sq : Space) (a : Nat) (b : Byte) (s : State) :
    spaceMem sq (setByte sp a b s) = if home sq s = home sp s then memWrite a b (spaceMem sp s) else spaceMem sq s := by
  rw [spaceMem, home_congr (setByte_placement sp a b s), setByte, heldMem_setMem]
  rfl

theorem heldMem_setByte (sp sq : Space) (a : Nat) (b : Byte) (s : State) :
    heldMem sq (setByte sp a b s) = if sq = home sp s then memWrite a b (spaceMem sp s) else heldMem sq s :=
  heldMem_setMem _ _ _ _

@[simp] theorem spaceLen_setByte (sp sq : Space) (a : Nat) (b : Byte) (s : State) :
    spaceLen sq (setByte sp a b s) = spaceLen sq s := by
  cases sq <;> simp [spaceLen]

/-- Writing a length register writes that one. -/
theorem spaceLen_setLen (sp sq : Space) (n : Nat) (s : State) :
    spaceLen sq (setLen sp n s) = if sq = sp then some n else spaceLen sq s := by
  cases sp <;> cases sq <;> rfl

@[simp] theorem heldMem_setLen (sp sq : Space) (n : Nat) (s : State) : heldMem sq (setLen sp n s) = heldMem sq s := by
  cases sp <;> cases sq <;> rfl

@[simp] theorem spaceMem_setLen (sp sq : Space) (n : Nat) (s : State) : spaceMem sq (setLen sp n s) = spaceMem sq s := by
  rw [spaceMem, home_congr (setLen_placement sp n s), heldMem_setLen, spaceMem]

/-- A space's bytes depend on the four memories and the mapping alone. -/
theorem spaceMem_congr {s t : State} (hk : t.key = s.key) (hn : t.nonce = s.nonce) (hi : t.inp = s.inp) (ho : t.out = s.out)
    (hp : t.placement = s.placement) (sp : Space) : spaceMem sp t = spaceMem sp s := by
  rw [spaceMem, home_congr hp, spaceMem]
  cases home sp s <;> assumption

/-! ## The mapping -/

theorem placed_eq_next_iff {s : State} {u : Unit} : placed s = .next u ↔ s.placement ≠ .shifted := by
  by_cases h : s.placement = .shifted <;> simp [placed, h]

@[simp] theorem placed_of_ne {s : State} (h : s.placement ≠ .shifted) : placed s = .next () := placed_eq_next_iff.mpr h

theorem placed_of_shifted {s : State} (h : s.placement = .shifted) : placed s = .refused .shiftedOverlap := if_pos h

end Sys2Proof.Machine
end

