-- ==== Sys2Proof/Laws/Memory.lean ====
section
/-! SUPPORT. The laws of one operand space's memory: what a byte reads as after a write, and the canonical form. -/

namespace Sys2Proof.Machine

theorem memRead_memErase (a a' : Nat) :
    ∀ m : Memory, memRead (memErase a m) a' = if a' = a then unlistedByte else memRead m a'
  | [] => by simp [memErase, memRead]
  | (k, v) :: rest => by
    have ih := memRead_memErase a a' rest
    by_cases hk : k = a
    · by_cases ha : a' = a
      · simp [memErase, hk, ha] at ih ⊢; exact ih
      · simp [memErase, memRead, hk, ha, Ne.symm ha] at ih ⊢; exact ih
    · by_cases ha : k = a'
      · subst ha; simp [memErase, memRead, hk]
      · simp [memErase, memRead, hk, ha]; exact ih

theorem memRead_memInsert (a : Nat) (b : Byte) (a' : Nat) :
    ∀ m : Memory, memRead (memInsert a b m) a' = if a' = a then b else memRead m a'
  | [] => by by_cases ha : a' = a <;> simp [memInsert, memRead, ha, Ne.symm]
  | (k, v) :: rest => by
    have ih := memRead_memInsert a b a' rest
    by_cases ha : a' = a
    · subst ha
      rcases lt_trichotomy a' k with h | h | h
      · simp [memInsert, memRead, h]
      · simp [memInsert, memRead, h]
      · simp [memInsert, memRead, show ¬ a' < k by omega, show a' ≠ k by omega, show k ≠ a' by omega]
        simpa using ih
    · rcases lt_trichotomy a k with h | h | h
      · simp [memInsert, memRead, h, ha, Ne.symm ha]
      · subst h; simp [memInsert, memRead, ha, Ne.symm ha]
      · simp [memInsert, memRead, show ¬ a < k by omega, show a ≠ k by omega, ha]
        simp [ha] at ih; simp [ih]

/-- What a byte of a memory reads as after a write: the byte written at that address, and otherwise as before. -/
theorem memRead_memWrite (a : Nat) (b : Byte) (a' : Nat) (m : Memory) :
    memRead (memWrite a b m) a' = if a' = a then b else memRead m a' := by
  by_cases hb : b = unlistedByte
  · simp [memWrite, hb, memRead_memErase]
  · simp [memWrite, hb, memRead_memInsert]

theorem Memory.wfFrom_mono {lo hi : Nat} (h : lo ≤ hi) : ∀ {m : Memory}, Memory.wfFrom hi m = true → Memory.wfFrom lo m = true
  | [], _ => rfl
  | (a, b) :: rest, hw => by
    simp only [Memory.wfFrom, Bool.and_eq_true, decide_eq_true_eq] at hw ⊢
    exact ⟨⟨by omega, hw.1.2⟩, hw.2⟩

theorem memErase_wfFrom (a : Nat) : ∀ {m : Memory} {lo : Nat}, Memory.wfFrom lo m = true → Memory.wfFrom lo (memErase a m) = true
  | [], _, _ => rfl
  | (k, v) :: rest, lo, hw => by
    simp only [Memory.wfFrom, Bool.and_eq_true, decide_eq_true_eq] at hw
    have ih := memErase_wfFrom a hw.2
    by_cases hk : k = a
    · simpa [memErase, hk] using Memory.wfFrom_mono (by omega) ih
    · simp [memErase, hk, Memory.wfFrom, ih, hw.1.1, hw.1.2]

theorem memInsert_wfFrom (a : Nat) {b : Byte} (hb : b ≠ unlistedByte) :
    ∀ {m : Memory} {lo : Nat}, Memory.wfFrom lo m = true → lo ≤ a → Memory.wfFrom lo (memInsert a b m) = true
  | [], lo, _, ha => by simp [memInsert, Memory.wfFrom, hb, ha]
  | (k, v) :: rest, lo, hw, ha => by
    simp only [Memory.wfFrom, Bool.and_eq_true, decide_eq_true_eq] at hw
    obtain ⟨⟨hlo, hv⟩, hrest⟩ := hw
    rcases lt_trichotomy a k with h | h | h
    · simp [memInsert, h, hb, Memory.wfFrom, ha, hv, hrest]
    · subst h; simp [memInsert, hb, Memory.wfFrom, ha, hrest]
    · have := memInsert_wfFrom a hb hrest (show k + 1 ≤ a by omega)
      simp [memInsert, Memory.wfFrom, hlo, hv, this, show ¬ a < k by omega, show a ≠ k by omega]

/-- A write keeps the canonical form. -/
theorem memWrite_wf (a : Nat) (b : Byte) {m : Memory} (h : m.wf = true) : Memory.wf (memWrite a b m) = true := by
  by_cases hb : b = unlistedByte
  · rw [memWrite, if_pos hb]; exact memErase_wfFrom a h
  · rw [memWrite, if_neg hb]; exact memInsert_wfFrom a hb h (Nat.zero_le a)

/-- What a byte of any space reads as after a byte is stored: where the two spaces are held in one memory, the stored byte is seen
through both. -/
theorem byteAt_setByte (sp sq : Space) (a a' : Nat) (b : Byte) (s : State) :
    byteAt sq a' (setByte sp a b s) = if home sq s = home sp s ∧ a' = a then b else byteAt sq a' s := by
  rw [byteAt, spaceMem_setByte]
  by_cases h : home sq s = home sp s
  · rw [if_pos h, memRead_memWrite, byteAt, spaceMem, spaceMem, h]
    simp
  · rw [if_neg h, if_neg fun e => h e.1, byteAt]

/-- Mapped onto the same bytes, `OUT` reads as `IN` (R52). -/
theorem byteAt_out_of_same {s : State} (h : s.placement = .same) (a : Nat) : byteAt .out a s = byteAt .inp a s := by
  rw [byteAt, spaceMem, home_out_of_same h]; rfl

/-- Storing a byte keeps every memory's canonical form. -/
theorem setByte_wf (sp : Space) (a : Nat) (b : Byte) {s : State} (h : ∀ sq, (heldMem sq s).wf = true) (sq : Space) :
    (heldMem sq (setByte sp a b s)).wf = true := by
  rw [heldMem_setByte]
  split
  · exact memWrite_wf a b (h _)
  · exact h sq

/-- The memories at reset are canonical. -/
theorem reset_wf (sp : Space) : (heldMem sp State.reset).wf = true := by cases sp <;> rfl

end Sys2Proof.Machine
end

