-- ==== Sys2Proof/Laws/Ops.lean ====
section
/-! SUPPORT. What each shared operation can do, said once: the reads, the operand forms and the chunk's bytes. -/

namespace Sys2Proof.Machine

/-! ## Sequencing of reads -/

section
variable {α β : Type}

@[simp] theorem andThen_next (a : α) (f : α → Read β) : andThen (.next a) f = f a := rfl
@[simp] theorem andThen_fault (r : Fault) (f : α → Read β) : andThen (.fault r) f = .fault r := rfl
@[simp] theorem andThen_refused (r : Refusal) (f : α → Read β) : andThen (.refused r) f = .refused r := rfl

/-- A sequence answers a next value exactly when both parts do. -/
theorem andThen_eq_next_iff {o : Read α} {f : α → Read β} {b : β} :
    andThen o f = .next b ↔ ∃ a, o = .next a ∧ f a = .next b := by
  cases o <;> simp

@[simp] theorem valueOf_some (l : Loc) (a : α) : valueOf l (some a) = .next a := rfl
@[simp] theorem valueOf_none (l : Loc) : valueOf (α := α) l none = .refused (.noValue l) := rfl

theorem valueOf_eq_next_iff {l : Loc} {v : Option α} {a : α} : valueOf l v = .next a ↔ v = some a := by
  cases v <;> simp

end

/-! ## Whole files of locations -/

section
variable {α : Type} {n : Nat} {loc : Fin n → Loc}

@[simp] theorem readAll_map_some (w : Vector α n) : readAll loc (w.map some) = .next w := by
  have h : ∀ i : Fin n, ((w.map some)[i]).isSome = true := by simp
  rw [readAll, dif_pos h]
  congr 1
  ext i hi
  simp

/-- A whole file reads as `w` exactly when it holds the values of `w`. -/
theorem readAll_eq_next_iff {v : Vector (Option α) n} {w : Vector α n} : readAll loc v = .next w ↔ v = w.map some := by
  refine ⟨fun h => ?_, fun h => h ▸ readAll_map_some w⟩
  by_cases hv : ∀ i : Fin n, (v[i]).isSome = true
  · rw [readAll, dif_pos hv] at h
    simp only [Host.Outcome.next.injEq] at h
    subst h
    ext i hi
    simp
  · rw [readAll, dif_neg hv] at h
    cases h

/-- Where every location of a file holds a value, the file holds some values. -/
theorem exists_values {v : Vector (Option α) n} (h : ∀ i : Fin n, (v[i]).isSome = true) : ∃ w : Vector α n, v = w.map some :=
  ⟨Vector.ofFn fun i => (v[i]).get (h i), by ext i hi; simp⟩

/-- Where some location of a file holds no value, the read is refused and names the first one. -/
theorem readAll_refuses {v : Vector (Option α) n} (h : ¬ ∀ i : Fin n, (v[i]).isSome = true) :
    ∃ i : Fin n, readAll loc v = .refused (.noValue (loc i)) ∧ v[i] = none ∧ ∀ j : Fin n, j < i → (v[j]).isSome = true := by
  refine ⟨(firstNone v).get (firstNone_isSome h), by rw [readAll, dif_neg h], ?_⟩
  have hf : firstNone v = some ((firstNone v).get (firstNone_isSome h)) := by simp
  generalize (firstNone v).get (firstNone_isSome h) = i at hf
  rw [firstNone, List.find?_eq_some_iff_getElem] at hf
  obtain ⟨hi, k, hk, hki, hlt⟩ := hf
  refine ⟨by simpa using hi, fun j hj => ?_⟩
  have hkv : k = i.val := by have := congrArg Fin.val hki; simpa using this
  have := hlt j.val (by rw [hkv]; exact hj)
  cases hvj : v[j] <;> simp_all

end

/-! ## The operand spaces -/

/-- An offset of a space answers exactly when it is below the length the length register holds, if it holds one. -/
theorem inSpace_eq_next_iff {sp : Space} {a : Nat} {s : State} {u : Unit} :
    inSpace sp a s = .next u ↔ ∀ n, spaceLen sp s = some n → a < n := by
  cases h : spaceLen sp s with
  | none => simp [inSpace, h]
  | some n => by_cases ha : a < n <;> simp [inSpace, h, ha]

theorem inSpace_of_le {sp : Space} {a n : Nat} {s : State} (h : spaceLen sp s = some n) (ha : n ≤ a) :
    inSpace sp a s = .fault (.outsideSpace sp a) := by
  simp [inSpace, h, show ¬ a < n by omega]

theorem readSpace_eq_next_iff {sp : Space} {a : Nat} {s : State} {b : Byte} :
    readSpace sp a s = .next b ↔ (∀ n, spaceLen sp s = some n → a < n) ∧ byteAt sp a s = b := by
  simp [readSpace, andThen_eq_next_iff, inSpace_eq_next_iff]

theorem readSpace_of_lt {sp : Space} {a : Nat} {s : State} (h : ∀ n, spaceLen sp s = some n → a < n) :
    readSpace sp a s = .next (byteAt sp a s) := readSpace_eq_next_iff.mpr ⟨h, rfl⟩

theorem readSpace_of_le {sp : Space} {a n : Nat} {s : State} (h : spaceLen sp s = some n) (ha : n ≤ a) :
    readSpace sp a s = .fault (.outsideSpace sp a) := by
  simp [readSpace, inSpace_of_le h ha]

theorem writeOut_eq_next_iff {a : Nat} {b : Byte} {s t : State} :
    writeOut a b s = .next t ↔ (∀ n, s.outLen = some n → a < n) ∧ t = setByte .out a b s := by
  simp [writeOut, andThen_eq_next_iff, inSpace_eq_next_iff, spaceLen, eq_comm (a := t)]

/-! ## Loading words -/

/-- The little-endian word of a space at an offset. -/
def wordAt (sp : Space) (a : Nat) (s : State) : Word :=
  le32 (byteAt sp a s) (byteAt sp (a + 1) s) (byteAt sp (a + 2) s) (byteAt sp (a + 3) s)

theorem readWordLe_eq_next_iff {sp : Space} {a : Nat} {s : State} {w : Word} :
    readWordLe sp a s = .next w ↔ (∀ n, spaceLen sp s = some n → a + 3 < n) ∧ wordAt sp a s = w := by
  constructor
  · intro h
    simp only [readWordLe, andThen_eq_next_iff, readSpace_eq_next_iff] at h
    obtain ⟨_, ⟨_, rfl⟩, _, ⟨_, rfl⟩, _, ⟨_, rfl⟩, _, ⟨h3, rfl⟩, hw⟩ := h
    exact ⟨h3, by simpa [wordAt] using hw⟩
  · rintro ⟨h, rfl⟩
    have below : ∀ k, k ≤ 3 → readSpace sp (a + k) s = .next (byteAt sp (a + k) s) := fun k hk =>
      readSpace_of_lt fun n hn => by have := h n hn; omega
    simp [readWordLe, wordAt, show readSpace sp a s = _ from below 0 (by omega), below]

@[simp] theorem wordAt_writeX (sp : Space) (a : Nat) (i : Fin 16) (w : Word) (s : State) :
    wordAt sp a (writeX i w s) = wordAt sp a s := by cases sp <;> rfl

@[simp] theorem spaceLen_writeX (sp : Space) (i : Fin 16) (w : Word) (s : State) :
    spaceLen sp (writeX i w s) = spaceLen sp s := by cases sp <;> rfl

/-- `X` with words of a space loaded, one for each pair of an offset and an index. -/
def loadedX (sp : Space) (s : State) (l : List (Nat × Fin 16)) : State :=
  l.foldl (fun t p => writeX p.2 (wordAt sp p.1 s) t) s

theorem loadWords_eq_next (sp : Space) :
    ∀ (l : List (Nat × Fin 16)) (s₀ s t : State), (∀ a, wordAt sp a s = wordAt sp a s₀) → loadWords sp l s = .next t →
      t = l.foldl (fun t p => writeX p.2 (wordAt sp p.1 s₀) t) s
  | [], _, s, t, _, h => by simpa [loadWords, eq_comm] using h
  | (a, i) :: rest, s₀, s, t, he, h => by
    simp only [loadWords, andThen_eq_next_iff, readWordLe_eq_next_iff] at h
    obtain ⟨w, ⟨_, rfl⟩, h⟩ := h
    rw [he] at h
    exact loadWords_eq_next sp rest s₀ _ t (by simpa using he) h

/-- A load that answers a next state has written the words of the space at the offsets, and nothing else. -/
theorem eq_loadedX_of_loadWords {sp : Space} {l : List (Nat × Fin 16)} {s t : State} (h : loadWords sp l s = .next t) :
    t = loadedX sp s l :=
  loadWords_eq_next sp l s s t (fun _ => rfl) h

/-- A load answers a next state when every word lies below the space's length, if the length register holds one. -/
theorem loadWords_of_lt {sp : Space} :
    ∀ {l : List (Nat × Fin 16)} {s : State}, (∀ n, spaceLen sp s = some n → ∀ p ∈ l, p.1 + 3 < n) →
      ∃ t, loadWords sp l s = .next t
  | [], s, _ => ⟨s, rfl⟩
  | (a, i) :: rest, s, hl => by
    have h := readWordLe_eq_next_iff.mpr ⟨fun n hn => hl n hn (a, i) (by simp), rfl⟩
    simp only [loadWords, h, andThen_next]
    exact loadWords_of_lt fun n hn p hp => hl n (by simpa using hn) p (by simp [hp])

/-! ## The bytes of a chunk -/

/-- One byte of a chunk answers a next state exactly when its offset lies in both buffers and the keystream byte is there. -/
theorem xorByte_eq_next_iff {p : Nat} {k : Fin 64} {s t : State} :
    xorByte p k s = .next t ↔
      (∀ n, s.inLen = some n → p + k.val < n) ∧ (∀ n, s.outLen = some n → p + k.val < n) ∧
        ∃ z, s.ks[k] = some z ∧ t = setByte .out (p + k.val) (xor8 (byteAt .inp (p + k.val) s) z) s := by
  simp only [xorByte, andThen_eq_next_iff, readSpace_eq_next_iff, readKs, valueOf_eq_next_iff, writeOut_eq_next_iff, spaceLen]
  constructor
  · rintro ⟨b, ⟨hi, rfl⟩, z, hz, ho, rfl⟩
    exact ⟨hi, ho, z, hz, rfl⟩
  · rintro ⟨hi, ho, z, hz, rfl⟩
    exact ⟨_, ⟨hi, rfl⟩, z, hz, ho, rfl⟩

/-- A byte stored in `OUT` changes the memory that holds it: `IN`'s where the two are the same bytes, and otherwise `OUT`'s. -/
theorem setByte_out_eq (a : Nat) (b : Byte) (s : State) :
    setByte .out a b s = { s with inp := (setByte .out a b s).inp, out := (setByte .out a b s).out } ∧
      (s.placement ≠ .same → (setByte .out a b s).inp = s.inp) := by
  by_cases h : s.placement = .same
  · exact ⟨by simp [setByte, home_out_of_same h, setMem], fun hn => absurd h hn⟩
  · exact ⟨by simp [setByte, home_out_of_ne h, setMem], fun _ => by simp [setByte, home_out_of_ne h, setMem]⟩

/-- What the bytes of a chunk write: the memory that holds `OUT` alone, at the chunk's offsets, the input byte before the step xor the
keystream byte. Each offset's input is read before that offset is written, so this holds too where `IN` and `OUT` are the same
bytes (R52). -/
structure XorBytesDone (p : Nat) (l : List (Fin 64)) (s t : State) : Prop where
  same : t = { s with inp := t.inp, out := t.out }
  input : s.placement ≠ .same → t.inp = s.inp
  written : l.Nodup → ∀ k ∈ l, ∃ z, s.ks[k] = some z ∧ byteAt .out (p + k.val) t = xor8 (byteAt .inp (p + k.val) s) z
  kept : ∀ a, (∀ k ∈ l, a ≠ p + k.val) → byteAt .out a t = byteAt .out a s
  canonical : (∀ sp, (heldMem sp s).wf = true) → ∀ sp, (heldMem sp t).wf = true

theorem xorBytesDone_of_next (p : Nat) :
    ∀ {l : List (Fin 64)} {s t : State}, xorBytes p l s = .next t → XorBytesDone p l s t
  | [], s, t, h => by
    obtain rfl : s = t := by simpa [xorBytes] using h
    exact ⟨rfl, fun _ => rfl, by simp, fun _ _ => rfl, id⟩
  | k :: rest, s, t, h => by
    simp only [xorBytes, andThen_eq_next_iff] at h
    obtain ⟨u, hu, ht⟩ := h
    obtain ⟨_, _, z, hz, rfl⟩ := xorByte_eq_next_iff.mp hu
    have ih := xorBytesDone_of_next p ht
    obtain ⟨hsame, hinp⟩ := setByte_out_eq (p + k.val) (xor8 (byteAt .inp (p + k.val) s) z) s
    refine ⟨?_, fun hp => ?_, fun hnd j hj => ?_, fun a ha => ?_, fun hw => ih.canonical (setByte_wf .out _ _ hw)⟩
    · rw [ih.same, hsame]
    · rw [ih.input (by simpa using hp), hinp hp]
    · obtain ⟨hk, hrest⟩ := List.nodup_cons.mp hnd
      rcases List.mem_cons.mp hj with rfl | hr
      · refine ⟨z, hz, ?_⟩
        rw [ih.kept _ fun i hi => ?_]
        · simp [byteAt_setByte]
        · have : j.val ≠ i.val := fun e => hk (Fin.ext e ▸ hi)
          omega
      · obtain ⟨z', hz', hb⟩ := ih.written hrest j hr
        have : j.val ≠ k.val := fun e => hk (Fin.ext e ▸ hr)
        refine ⟨z', by simpa using hz', ?_⟩
        rw [hb, byteAt_setByte, if_neg fun e => by omega]
    · rw [ih.kept a fun i hi => ha i (by simp [hi]), byteAt_setByte]
      simp [ha k (by simp)]

/-- The bytes of a chunk answer a next state when every offset lies in both buffers and has its keystream byte. -/
theorem xorBytes_of_held {p : Nat} :
    ∀ {l : List (Fin 64)} {s : State}, (∀ k ∈ l, (∀ n, s.inLen = some n → p + k.val < n) ∧
      (∀ n, s.outLen = some n → p + k.val < n) ∧ (s.ks[k]).isSome = true) → ∃ t, xorBytes p l s = .next t
  | [], s, _ => ⟨s, rfl⟩
  | k :: rest, s, hl => by
    obtain ⟨h1, h2, h3⟩ := hl k (by simp)
    obtain ⟨z, hz⟩ := Option.isSome_iff_exists.mp h3
    have hx := (xorByte_eq_next_iff (p := p) (t := _)).mpr ⟨h1, h2, z, hz, rfl⟩
    simp only [xorBytes, hx, andThen_next]
    exact xorBytes_of_held fun j hj => by simpa using hl j (by simp [hj])

theorem chunkOffsets_nodup (m : Nat) : (chunkOffsets m).Nodup := (List.nodup_finRange 64).sublist (List.take_sublist m _)

/-- The offsets of a chunk of `m` bytes are those below `m`. -/
theorem mem_chunkOffsets {m : Nat} {k : Fin 64} : k ∈ chunkOffsets m ↔ k.val < m := by
  rw [chunkOffsets, List.mem_take_iff_getElem]
  constructor
  · rintro ⟨i, hi, rfl⟩
    simp at hi ⊢
    omega
  · intro h
    exact ⟨k.val, by simp; omega, by simp⟩

end Sys2Proof.Machine
end

