-- ==== Sys2Proof/Laws/Exec.lean ====
section
/-! SUPPORT. What instructions do on held words, what a step on the schedule ROM runs, and how runs of steps join. -/

namespace Sys2Proof.Machine

/-! ## Decoding the ROM -/

/-- Every word of the ROM decodes to the micro-operation the listing of rule R86 gives its index. -/
theorem rom_decodes : rom.map decodeWord = romOps.map Except.ok := by decide

theorem decodeWord_rom {k : Nat} {i : Instr} (h : romOps[k]? = some i) : ∃ w, rom[k]? = some w ∧ decodeWord w = .ok i := by
  have e := congrArg (fun l => l[k]?) rom_decodes
  simp only [List.getElem?_map, h, Option.map_some] at e
  simpa [Option.map_eq_some_iff] using e

/-- In a run of the ROM, the CORE's turn runs the micro-operation that the listing gives the index `SEQ`, whatever host moves are
still to come. -/
theorem coreTurn_rom {s : State} {i : Instr} (hp : s.testProgram = none) (hb : s.status = .busy)
    (hi : romOps[s.seq.toNat]? = some i) : coreTurn s = exec i s := by
  obtain ⟨w, hw, hd⟩ := decodeWord_rom hi
  have hq : s.seq.toNat ≤ Config.lastIndex := by
    have := (List.getElem?_eq_some_iff.mp hi).1
    have e : romOps.length = 93 := by decide
    simp only [Config.lastIndex]
    omega
  simp [coreTurn, hb, fetch, hq, program, hp, hw, runWord, hd]

/-- In an undisturbed run, a step runs the micro-operation that the listing gives the index `SEQ`. -/
theorem step_rom {s : State} {i : Instr} (hu : Undisturbed s) (hb : s.status = .busy) (hi : romOps[s.seq.toNat]? = some i) :
    step s = exec i s := by
  rw [← coreTurn_rom hu.2 hb hi, step, turn, hu.1]

/-- The same, with the index as a numeral. -/
theorem step_rom_at {s : State} {i : Instr} (k : Nat) (hu : Undisturbed s) (hb : s.status = .busy) (hq : s.seq.toNat = k)
    (hi : romOps[k]? = some i) : step s = exec i s :=
  step_rom hu hb (hq ▸ hi)

/-! ## Runs -/

@[simp] theorem run_zero (s : State) : run 0 s = .next s := rfl

/-- A run of `k + 1` steps is a step and then a run of `k`. -/
theorem run_succ_eq (k : Nat) (s : State) : run (k + 1) s = andThen (step s) (run k) := by
  cases h : step s <;>
  · have h' := h
    change Sys2Proof.core.step s = _ at h'
    simp only [run, Host.Core.run, h']
    rfl

theorem run_succ {s t : State} (h : step s = .next t) (k : Nat) : run (k + 1) s = run k t := by
  rw [run_succ_eq, h, andThen_next]

/-- A run of `j + k` steps is a run of `j` steps and then one of `k`. -/
theorem run_add {j : Nat} {s t : State} (k : Nat) (h : run j s = .next t) : run (j + k) s = run k t := by
  induction j generalizing s with
  | zero =>
    cases h
    rw [Nat.zero_add]
  | succ j ih =>
    rw [run_succ_eq, andThen_eq_next_iff] at h
    obtain ⟨u, hu, h⟩ := h
    rw [show j + 1 + k = (j + k) + 1 by omega, run_succ hu]
    exact ih h

/-! ## Instructions on held words -/

theorem getElem_of_map_some {α : Type} {n : Nat} {v : Vector (Option α) n} {w : Vector α n} (h : v = w.map some) (i : Fin n) :
    v[i] = some w[i] := by
  subst h; simp

/-- A quarter-round on a state whose sixteen words are held. -/
theorem execQr_of_words {a b c d : Fin 16} {s : State} {v : Vector Word 16} (hd : pairwiseDifferent a b c d = true)
    (hx : s.x = v.map some) : execQr a b c d s = .next (advance { s with x := (qrAt v a b c d).map some }) := by
  simp only [execQr, hd, if_true, readX, getElem_of_map_some hx, valueOf_some, andThen_next]
  simp [writeX, advance, qrAt, hx]

theorem execSave_of_words {s : State} {v : Vector Word 16} (hx : s.x = v.map some) :
    execSave s = .next (advance { s with sv := v.map some }) := by
  simp [execSave, readAllX, hx]

theorem execFeedfwd_of_words {s : State} {v w : Vector Word 16} (hx : s.x = v.map some) (hs : s.sv = w.map some) :
    execFeedfwd s = .next (advance { s with x := (addWords v w).map some }) := by
  simp [execFeedfwd, readAllX, readAllS, hx, hs]

theorem execSer_of_words {s : State} {v : Vector Word 16} (hx : s.x = v.map some) :
    execSer s = .next (advance { s with ks := (serFn v).map some }) := by
  simp [execSer, readAllX, hx]

end Sys2Proof.Machine
end

