-- ==== Sys2Proof/Laws/PerInstr.lean ====
section
/-! SUPPORT. A statement made for every instruction: the code of a well-formed instruction has the match bits of its row of
spec/opcode_table.json under the row's mask (rules R67, R68, R70). -/

namespace Sys2Proof.Laws.TableMatch

/-- A 32-bit code whose bits from `low` up are those of the match value: every mask of the table sets the bits from some bit up. -/
def wordMatches (low : Nat) (value : Word) : Code → Prop
  | .command _ => False
  | .word w => w.toNat / 2 ^ low = value.toNat / 2 ^ low

/-- The row of the opcode table that each instruction's code matches. -/
def Matches : Instr → Code → Prop
  | .stream, c => c = .command 0x01#8
  | .check, c => wordMatches 0 0x01000000#32 c
  | .ldconst, c => wordMatches 0 0x02000000#32 c
  | .ldkey, c => wordMatches 0 0x03000000#32 c
  | .ldctr, c => wordMatches 0 0x04000000#32 c
  | .ldnonce, c => wordMatches 0 0x05000000#32 c
  | .save, c => wordMatches 0 0x06000000#32 c
  | .qr _ _ _ _, c => wordMatches 16 0x07000000#32 c
  | .feedfwd, c => wordMatches 0 0x08000000#32 c
  | .ser, c => wordMatches 0 0x09000000#32 c
  | .xorchunk, c => wordMatches 0 0x0A000000#32 c
  | .ctrinc, c => wordMatches 0 0x0B000000#32 c
  | .bdone _, c => wordMatches 8 0x0C000000#32 c
  | .jmp _, c => wordMatches 8 0x0D000000#32 c
  | .endrun, c => wordMatches 0 0x0E000000#32 c

/-- The code of a well-formed instruction matches its row. -/
def Statement (i : Instr) : Prop := i.wf = true → Matches i (encode i)

theorem stream : Statement .stream := fun _ => rfl
theorem check : Statement .check := fun _ => rfl
theorem ldconst : Statement .ldconst := fun _ => rfl
theorem ldkey : Statement .ldkey := fun _ => rfl
theorem ldctr : Statement .ldctr := fun _ => rfl
theorem ldnonce : Statement .ldnonce := fun _ => rfl
theorem save : Statement .save := fun _ => rfl

theorem qr (a b c d : Fin 16) : Statement (.qr a b c d) := fun _ => by
  simp only [Matches, encode, opWord, wordMatches, BitVec.toNat_ofNat]
  omega

theorem feedfwd : Statement .feedfwd := fun _ => rfl
theorem ser : Statement .ser := fun _ => rfl
theorem xorchunk : Statement .xorchunk := fun _ => rfl
theorem ctrinc : Statement .ctrinc := fun _ => rfl

theorem bdone (t : BitVec 8) : Statement (.bdone t) := fun _ => by
  simp only [Matches, encode, opWord, wordMatches, BitVec.toNat_ofNat]
  omega

theorem jmp (t : BitVec 8) : Statement (.jmp t) := fun _ => by
  simp only [Matches, encode, opWord, wordMatches, BitVec.toNat_ofNat]
  omega

theorem endrun : Statement .endrun := fun _ => rfl

end Sys2Proof.Laws.TableMatch
end

