-- ==== Sys2Proof/Laws/Shape.lean ====
section
/-! SUPPORT. Everything an instruction can do when it answers a next state, said once; and the laws of frames, of words loaded into
`X`, of code fields and of lines of text. -/

namespace Sys2Proof.Machine

/-! ## Spaces that share their bytes -/

/-- Two spaces are held in one memory exactly when they share their bytes. -/
theorem home_eq_iff {sp sq : Space} {s : State} : home sq s = home sp s ↔ SharesBytes s sp sq := by
  cases sp <;> cases sq <;> by_cases h : s.placement = .same <;> simp [home, h, SharesBytes]

/-- A host fill that answers a next state has stored the byte, in a space that is not part of a shifted overlap. -/
theorem hostFill_eq_next_iff {sp : Space} {a : Nat} {b : Byte} {s t : State} :
    hostFill sp a b s = .next t ↔ (sp = .key ∨ sp = .nonce ∨ s.placement ≠ .shifted) ∧ t = setByte sp a b s := by
  cases sp <;> simp [hostFill, andThen_eq_next_iff, placed_eq_next_iff, eq_comm (a := t)]

/-! ## Inputs -/

theorem inputsUnchanged_refl (s : State) : InputsUnchanged s s :=
  ⟨rfl, fun _ => rfl, fun _ => rfl, fun _ => rfl, fun _ _ => rfl, rfl, rfl, rfl⟩

theorem inputsUnchanged_trans {s t u : State} (h : InputsUnchanged s t) (h' : InputsUnchanged t u) : InputsUnchanged s u :=
  ⟨h'.ctr0.trans h.ctr0, fun sp => (h'.lens sp).trans (h.lens sp), fun a => (h'.key a).trans (h.key a),
    fun a => (h'.nonce a).trans (h.nonce a),
    fun hp a => (h'.inp (by rwa [h.placement]) a).trans (h.inp hp a), h'.placement.trans h.placement, h'.host.trans h.host,
    h'.program.trans h.program⟩

/-- A byte of `IN` is unchanged wherever the byte of `OUT` at its offset is, whatever the mapping. -/
theorem byteAt_inp_of_inputs {s t : State} {a : Nat} (h : InputsUnchanged s t) (ho : byteAt .out a t = byteAt .out a s) :
    byteAt .inp a t = byteAt .inp a s := by
  by_cases hp : s.placement = .same
  · rw [← byteAt_out_of_same (h.placement.trans hp), ho, byteAt_out_of_same hp]
  · exact h.inp hp a

/-- The inputs are unchanged when their fields are; of `IN`'s, where it is not `OUT`. -/
theorem inputsUnchanged_of_fields {s t : State} (h0 : t.ctr0 = s.ctr0) (h1 : t.keyLen = s.keyLen) (h2 : t.nonceLen = s.nonceLen)
    (h3 : t.inLen = s.inLen) (h4 : t.outLen = s.outLen) (h5 : t.key = s.key) (h6 : t.nonce = s.nonce)
    (h7 : s.placement ≠ .same → t.inp = s.inp) (h8 : t.placement = s.placement) (h9 : t.host = s.host)
    (h10 : t.testProgram = s.testProgram) : InputsUnchanged s t :=
  ⟨h0, by intro sp; cases sp <;> assumption, by intro a; simp [byteAt, h5], by intro a; simp [byteAt, h6],
    by intro hp a; simp [byteAt, h7 hp], h8, h9, h10⟩

theorem keyOf_eq_of_inputs {s t : State} (h : InputsUnchanged s t) : keyOf t = keyOf s := by
  ext1 i hi; simp [keyOf, h.key]

theorem nonceOf_eq_of_inputs {s t : State} (h : InputsUnchanged s t) : nonceOf t = nonceOf s := by
  ext1 i hi; simp [nonceOf, h.nonce]

theorem internalCleared_clearInternal (s : State) : InternalCleared (clearInternal s) := by simp [InternalCleared]

/-- The next index of the ROM, as a number. -/
theorem toNat_seq_succ {s : State} (h : s.seq.toNat < 92) : (s.seq + 1#7).toNat = s.seq.toNat + 1 := by
  rw [BitVec.toNat_add]; simp; omega

/-- A target is in the ROM exactly when it is at most 92. -/
theorem targetInRom_iff {d : BitVec 8} : targetInRom d = true ↔ d.toNat ≤ 92 := decide_eq_true_iff

/-- A target in the ROM is the next index as it stands. -/
theorem toNat_setWidth_target {d : BitVec 8} (h : d.toNat ≤ 92) : (d.setWidth 7).toNat = d.toNat := by
  rw [BitVec.toNat_setWidth]; omega

/-- `CHECK` finds no cause exactly when the three conditions hold (R152). -/
theorem violationCauses_eq_zero_iff {k n i o : Nat} : violationCauses k n i o = 0#3 ↔ LengthsPass k n i o := by
  simp only [violationCauses, Config.keyBytes, Config.nonceBytes, LengthsPass]
  by_cases a : k = 32 <;> by_cases b : n = 12 <;> by_cases d : i = o <;> simp_all

/-- What the CORE fetches at an index of its program. -/
theorem fetch_of_word {s : State} {w : Word} (hq : s.seq.toNat ≤ 92) (hw : (program s)[s.seq.toNat]? = some w) :
    fetch s = .next w := by
  rw [fetch, if_pos (show s.seq.toNat ≤ Config.lastIndex from hq), hw]

/-- A `SEQ` above 92 is refused. -/
theorem fetch_outside {s : State} (hq : 92 < s.seq.toNat) : fetch s = .refused (.seqOutside s.seq) := by
  rw [fetch, if_neg (by simp only [Config.lastIndex]; omega)]

/-! ## Words loaded into `X` -/

/-- The words of `X` after words `f` at offsets are loaded. -/
def loadX (f : Nat → Word) (l : List (Nat × Fin 16)) (x : Vector (Option Word) 16) : Vector (Option Word) 16 :=
  l.foldl (fun x p => x.set p.2.val (some (f p.1))) x

/-- A load of words changes `X` alone. -/
theorem loadedX_eq (sp : Space) (s : State) (l : List (Nat × Fin 16)) :
    loadedX sp s l = { s with x := loadX (fun a => wordAt sp a s) l s.x } := by
  unfold loadedX
  have : ∀ (g : Nat → Word) (l : List (Nat × Fin 16)) (t : State), l.foldl (fun t p => writeX p.2 (g p.1) t) t =
      { t with x := loadX g l t.x } := by
    intro g l
    induction l with
    | nil => intro t; rfl
    | cons p l ih => intro t; simp only [List.foldl_cons, ih]; rfl
  exact this (fun a => wordAt sp a s) l s

/-- A load that answers a next state has changed `X` alone, to the words of the space. -/
theorem eq_of_loadWords {sp : Space} {l : List (Nat × Fin 16)} {s t : State} (h : loadWords sp l s = .next t) :
    t = { s with x := loadX (fun a => wordAt sp a s) l s.x } := by
  rw [eq_loadedX_of_loadWords h, loadedX_eq]

/-- A word outside the loaded indices is kept. -/
theorem getElem_loadX_of_not_mem {f : Nat → Word} {i : Fin 16} :
    ∀ {l : List (Nat × Fin 16)} {x : Vector (Option Word) 16}, (∀ p ∈ l, p.2 ≠ i) → (loadX f l x)[i] = x[i]
  | [], _, _ => rfl
  | p :: l, x, h => by
    have h1 : p.2 ≠ i := h p (by simp)
    have := getElem_loadX_of_not_mem (f := f) (l := l) (x := x.set p.2.val (some (f p.1))) fun q hq => h q (by simp [hq])
    rw [show loadX f (p :: l) x = loadX f l (x.set p.2.val (some (f p.1))) from rfl, this]
    simp [Fin.val_ne_of_ne h1]

/-! ## What an instruction can do -/

/-- Every way an instruction can answer a next state. -/
inductive ExecShape (i : Instr) (s t : State) : Prop where
  /-- A `STREAM` that is ignored. -/
  | same (h : i = .stream) (hs : s.status = .busy ∨ s.status = .halt) (ht : t = s)
  /-- A `STREAM` that starts a run. -/
  | start (h : i = .stream) (c : Word) (hc : s.ctr0 = some c) (hs : s.status ≠ .busy ∧ s.status ≠ .halt)
      (hl : ∀ sp, (spaceLen sp s).isSome = true) (hp : s.placement ≠ .shifted) (ht : t = startRun c s)
  /-- A `CHECK` that finds a cause. -/
  | halt (h : i = .check) (k n j o : Nat) (hk : s.keyLen = some k) (hn : s.nonceLen = some n) (hj : s.inLen = some j)
      (ho : s.outLen = some o) (hc : violationCauses k n j o ≠ 0#3) (ht : t = raiseViolation (violationCauses k n j o) s)
  /-- An `END`. -/
  | finish (h : i = .endrun) (ht : t = finishRun s)
  /-- An instruction that writes no more than `X`, `S`, `KS` and `SEQ`. -/
  | regs (x : Vector (Option Word) 16) (sv : Vector (Option Word) 16) (ks : Vector (Option Byte) 64) (q : BitVec 7)
      (hi : i ≠ .endrun ∧ i ≠ .stream ∧ i ≠ .ctrinc ∧ i ≠ .xorchunk) (hx : ∀ k, writesX i k = false → x[k] = s.x[k])
      (hq : (∀ d, i ≠ .bdone d) → (∀ d, i ≠ .jmp d) → q = s.seq + 1#7)
      (ht : t = { s with x := x, sv := sv, ks := ks, seq := q })
  /-- A `CTRINC`. -/
  | ctr (h : i = .ctrinc) (c : Word) (hc : s.ctr = some c) (ht : t = { s with ctr := some (add32 c 1#32), seq := s.seq + 1#7 })
  /-- An `XORCHUNK`. -/
  | chunk (h : i = .xorchunk) (p n : Nat) (inp out : Memory) (hp : s.pos = some p) (hn : s.inLen = some n)
      (hs : s.placement ≠ .shifted) (hd : XorBytesDone p (chunkOffsets (min 64 (n - p))) s { s with inp := inp, out := out })
      (ht : t = { s with inp := inp, out := out, pos := some (p + min 64 (n - p)), seq := s.seq + 1#7 })

/-- An instruction that answers a next state has one of those shapes. -/
theorem exec_shape {i : Instr} {s t : State} (h : exec i s = .next t) : ExecShape i s t := by
  cases i
  case stream =>
    simp only [exec, execStream] at h
    split at h
    · cases h; exact .same rfl (by assumption) rfl
    · simp only [andThen_eq_next_iff, valueOf_eq_next_iff, placed_eq_next_iff] at h
      obtain ⟨c, hc, k, hk, n, hn, i, hi, o, ho, _, hp, h⟩ := h
      cases h
      refine .start rfl c hc (by tauto) ?_ hp rfl
      intro sp; cases sp <;> simp [spaceLen, hk, hn, hi, ho]
  case check =>
    simp only [exec, execCheck, andThen_eq_next_iff, valueOf_eq_next_iff] at h
    obtain ⟨k, hk, n, hn, i, hi, o, ho, h⟩ := h
    split at h
    · rename_i hc; cases h; exact .halt rfl k n i o hk hn hi ho hc rfl
    · cases h; exact .regs s.x s.sv s.ks _ (by decide) (fun _ _ => rfl) (fun _ _ => rfl) rfl
  case ldconst =>
    cases h
    refine .regs _ s.sv s.ks _ (by decide) ?_ (fun _ _ => rfl) rfl
    intro k hk
    simp [writesX] at hk
    simp
    repeat rw [Vector.getElem_set_ne _ _ (by omega)]
  case ldkey =>
    simp only [exec, execLdkey, andThen_eq_next_iff] at h
    obtain ⟨u, hu, h⟩ := h
    have hx := eq_of_loadWords hu
    cases h
    refine .regs _ s.sv s.ks _ (by decide) (fun k hk => ?_) (fun _ _ => rfl) (by rw [hx]; rfl)
    simp [writesX] at hk
    exact getElem_loadX_of_not_mem (by simp [keyLayout, Fin.ext_iff]; omega)
  case ldctr =>
    simp only [exec, execLdctr, andThen_eq_next_iff, valueOf_eq_next_iff] at h
    obtain ⟨c, hc, h⟩ := h
    cases h
    refine .regs _ s.sv s.ks _ (by decide) ?_ (fun _ _ => rfl) rfl
    intro k hk
    simp [writesX] at hk
    simp
    rw [Vector.getElem_set_ne _ _ (by omega)]
  case ldnonce =>
    simp only [exec, execLdnonce, andThen_eq_next_iff] at h
    obtain ⟨u, hu, h⟩ := h
    have hx := eq_of_loadWords hu
    cases h
    refine .regs _ s.sv s.ks _ (by decide) (fun k hk => ?_) (fun _ _ => rfl) (by rw [hx]; rfl)
    simp [writesX] at hk
    exact getElem_loadX_of_not_mem (by simp [nonceLayout, Fin.ext_iff]; omega)
  case save =>
    simp only [exec, execSave, andThen_eq_next_iff] at h
    obtain ⟨w, hw, h⟩ := h
    cases h
    exact .regs s.x _ s.ks _ (by decide) (fun _ _ => rfl) (fun _ _ => rfl) rfl
  case qr a b c d =>
    simp only [exec, execQr] at h
    split at h
    · simp only [andThen_eq_next_iff] at h
      obtain ⟨wa, _, wb, _, wc, _, wd, _, h⟩ := h
      cases h
      refine .regs _ s.sv s.ks _ (by simp) ?_ (fun _ _ => rfl) rfl
      intro k hk
      simp [writesX] at hk
      simp
      repeat rw [Vector.getElem_set_ne _ _ (by omega)]
    · cases h
  case feedfwd =>
    simp only [exec, execFeedfwd, andThen_eq_next_iff] at h
    obtain ⟨w, hw, v, hv, h⟩ := h
    cases h
    exact .regs _ s.sv s.ks _ (by decide) (fun k hk => by simp [writesX] at hk) (fun _ _ => rfl) rfl
  case ser =>
    simp only [exec, execSer, andThen_eq_next_iff] at h
    obtain ⟨w, hw, h⟩ := h
    cases h
    exact .regs s.x s.sv _ _ (by decide) (fun _ _ => rfl) (fun _ _ => rfl) rfl
  case xorchunk =>
    simp only [exec, execXorchunk, andThen_eq_next_iff, valueOf_eq_next_iff, placed_eq_next_iff] at h
    obtain ⟨p, hp, n, hn, _, hs, u, hu, h⟩ := h
    have hd := xorBytesDone_of_next p hu
    cases h
    refine .chunk rfl p n u.inp u.out hp hn hs ?_ ?_
    · rw [hd.same] at hd; exact hd
    · rw [hd.same]; rfl
  case ctrinc =>
    simp only [exec, execCtrinc, andThen_eq_next_iff, valueOf_eq_next_iff] at h
    obtain ⟨c, hc, h⟩ := h
    cases h
    exact .ctr rfl c hc rfl
  case bdone d =>
    simp only [exec, execBdone] at h
    split at h
    · simp only [andThen_eq_next_iff, valueOf_eq_next_iff] at h
      obtain ⟨p, hp, n, hn, h⟩ := h
      cases h
      split
      · exact .regs s.x s.sv s.ks _ (by simp) (fun _ _ => rfl) (fun h => absurd rfl (h d)) rfl
      · exact .regs s.x s.sv s.ks _ (by simp) (fun _ _ => rfl) (fun h => absurd rfl (h d)) rfl
    · cases h
  case jmp d =>
    simp only [exec, execJmp] at h
    split at h
    · cases h
      exact .regs s.x s.sv s.ks _ (by simp) (fun _ _ => rfl) (fun _ h => absurd rfl (h d)) rfl
    · cases h
  case endrun => cases h; exact .finish rfl rfl

/-! ## Fields of a code -/

/-- A field of a word, as a number. -/
theorem toNat_field {n : Nat} (w : BitVec n) (lo len : Nat) : (w.extractLsb' lo len).toNat = w.toNat / 2 ^ lo % 2 ^ len := by
  simp [BitVec.extractLsb'_toNat, Nat.shiftRight_eq_div_pow]

/-- A field of a word has a value exactly when its number does. -/
theorem field_eq_iff {n lo len v : Nat} (w : BitVec n) (hv : v < 2 ^ len) :
    w.extractLsb' lo len = BitVec.ofNat len v ↔ w.toNat / 2 ^ lo % 2 ^ len = v := by
  rw [← BitVec.toNat_inj, toNat_field, BitVec.toNat_ofNat, Nat.mod_eq_of_lt hv]

/-! ## Lines of text -/

theorem splitAtChar_append (sep : Char) : ∀ (l r : List Char), sep ∉ l → splitAtChar sep (l ++ sep :: r) = l :: splitAtChar sep r
  | [], r, _ => by simp [splitAtChar]
  | c :: l, r, h => by
    simp at h
    simp [splitAtChar, Ne.symm h.1, splitAtChar_append sep l r h.2]

theorem splitAtChar_of_not_mem (sep : Char) : ∀ (l : List Char), sep ∉ l → splitAtChar sep l = [l]
  | [], _ => rfl
  | c :: l, h => by
    simp at h
    simp [splitAtChar, Ne.symm h.1, splitAtChar_of_not_mem sep l h.2]

/-- A decimal numeral below 93: no separator stands in it, and it reads back. -/
theorem decimal_toDigits {n : Nat} (h : n < 93) :
    let l := Nat.toDigits 10 n; ',' ∉ l ∧ ' ' ∉ l ∧ ';' ∉ l ∧ l ≠ [] ∧ decimal l = some n := by
  have : ∀ n : Fin 93, let l := Nat.toDigits 10 n.val;
      ',' ∉ l ∧ ' ' ∉ l ∧ ';' ∉ l ∧ l ≠ [] ∧ decimal l = some n.val := by decide
  exact this ⟨n, h⟩

end Sys2Proof.Machine
end

