-- ==== Sys2Proof/Laws/Runs.lean ====
section
/-! SUPPORT. How runs of the schedule go: the rounds of the ROM, runs cut in two, and states in which the CORE takes no step. -/

namespace Sys2Proof.Machine

/-- Where the CORE is not running and no host move is to come, no number of steps changes anything. -/
theorem run_of_notBusy {s : State} (hu : s.host = []) (hb : s.status ≠ .busy) : ∀ k, run k s = .next s
  | 0 => rfl
  | k + 1 => by
    rw [run_succ (t := s) (by simp [step, turn, hu, coreTurn, hb])]
    exact run_of_notBusy hu hb k

/-- A run that answers has answered at each earlier step. -/
theorem run_cut {s t : State} {j k : Nat} (h : run (j + k) s = .next t) : ∃ u, run j s = .next u ∧ run k u = .next t := by
  induction j generalizing s with
  | zero => exact ⟨s, rfl, by simpa using h⟩
  | succ j ih =>
    rw [show j + 1 + k = (j + k) + 1 by omega, run_succ_eq, andThen_eq_next_iff] at h
    obtain ⟨v, hv, h⟩ := h
    obtain ⟨u, h1, h2⟩ := ih h
    exact ⟨u, by rw [run_succ hv, h1], h2⟩

/-- The state at an index of the ROM with `X` as given, all else as in `s`. -/
def atIndex (s : State) (k : Nat) (x : Vector (Option Word) 16) : State := { s with x := x, seq := BitVec.ofNat 7 k }

/-- The eighty words `ROM[7..87]` are quarter-rounds on four different indices. -/
theorem romOps_qr : ∀ q : Fin 93, 7 ≤ q.val → q.val ≤ 86 →
    ∃ a b c d, romOps[q.val]? = some (.qr a b c d) ∧ pairwiseDifferent a b c d = true := by
  have h : ∀ q : Fin 93, 7 ≤ q.val → q.val ≤ 86 →
      (match romOps[q.val]? with | some (.qr a b c d) => pairwiseDifferent a b c d | _ => false) = true := by decide
  intro q h1 h2
  have := h q h1 h2
  split at this
  · exact ⟨_, _, _, _, by assumption, this⟩
  · cases this

/-- Round `r` of the ROM is the eight quarter-rounds of `DROUND` (R76). -/
theorem romOps_round : ∀ r : Fin 10, ∀ j : Fin 8, romOps[7 + 8 * r.val + j.val]? = dRoundOps[j.val]? := by decide

/-- One quarter-round of the ROM on sixteen held words. -/
theorem run_qr {s : State} {a b c d : Fin 16} (w : Vector Word 16) (k j : Nat) (hu : Undisturbed s) (hb : s.status = .busy)
    (hi : romOps[k]? = some (.qr a b c d)) (hd : pairwiseDifferent a b c d = true) :
    run (j + 1) (atIndex s k (w.map some)) = run j (atIndex s (k + 1) ((qrAt w a b c d).map some)) := by
  have hk : k < 93 := by
    have := (List.getElem?_eq_some_iff.mp hi).1
    have e : romOps.length = 93 := by decide
    omega
  apply run_succ
  rw [step_rom_at (s := atIndex s k (w.map some)) k hu hb (by simp [atIndex]; omega) hi]
  change execQr a b c d _ = _
  rw [execQr_of_words (s := atIndex s k (w.map some)) hd rfl]
  simp [advance, atIndex]
  rw [show (1#7) = BitVec.ofNat 7 1 from rfl, ← BitVec.ofNat_add]

/-- Eight steps of the ROM are one application of the mixing transformation. -/
theorem run_dround {s : State} (v : Vector Word 16) (r j : Nat) (hr : r < 10) (hu : Undisturbed s) (hb : s.status = .busy) :
    run (j + 8) (atIndex s (7 + 8 * r) (v.map some)) = run j (atIndex s (7 + 8 * (r + 1)) ((diagRound (colRound v)).map some)) := by
  have hrom := fun j => romOps_round ⟨r, hr⟩ j
  rw [show j + 8 = j + 7 + 1 from rfl, run_qr v (7 + 8 * r) _ hu hb (hrom 0) rfl]
  rw [show j + 7 = j + 6 + 1 from rfl, run_qr _ (7 + 8 * r + 1) _ hu hb (hrom 1) rfl]
  rw [show j + 6 = j + 5 + 1 from rfl, run_qr _ (7 + 8 * r + 2) _ hu hb (hrom 2) rfl]
  rw [show j + 5 = j + 4 + 1 from rfl, run_qr _ (7 + 8 * r + 3) _ hu hb (hrom 3) rfl]
  rw [show j + 4 = j + 3 + 1 from rfl, run_qr _ (7 + 8 * r + 4) _ hu hb (hrom 4) rfl]
  rw [show j + 3 = j + 2 + 1 from rfl, run_qr _ (7 + 8 * r + 5) _ hu hb (hrom 5) rfl]
  rw [show j + 2 = j + 1 + 1 from rfl, run_qr _ (7 + 8 * r + 6) _ hu hb (hrom 6) rfl]
  rw [run_qr _ (7 + 8 * r + 7) _ hu hb (hrom 7) rfl]
  rfl

/-- The first `8 r` quarter-rounds of the ROM are `r` applications of the mixing transformation. -/
theorem run_mix {s : State} (v : Vector Word 16) (hu : Undisturbed s) (hb : s.status = .busy) :
    ∀ r j, r ≤ 10 → run (j + 8 * r) (atIndex s 7 (v.map some)) = run j (atIndex s (7 + 8 * r) ((mixRounds r v).map some))
  | 0, _, _ => rfl
  | r + 1, j, hr => by
    rw [show j + 8 * (r + 1) = (j + 8) + 8 * r by omega, run_mix v hu hb r (j + 8) (by omega)]
    exact run_dround _ r j (by omega) hu hb

/-- Past a chunk at a chunk boundary, one more chunk is done (R66). -/
theorem chunks_succ {p n : Nat} (hd : 64 ∣ p) (hl : p < n) : chunks (p + min 64 (n - p)) = chunks p + 1 := by
  unfold chunks; omega

/-- All sixteen words are held when the four groups of R22 are. -/
theorem heldX_all {s : State} (h1 : HeldX 0 4 s) (h2 : HeldX 4 12 s) (h3 : HeldX 12 13 s) (h4 : HeldX 13 16 s) :
    ∀ i : Fin 16, s.x[i].isSome = true := by
  intro i
  by_cases a : i.val < 4
  · exact h1 i (by omega) a
  by_cases b : i.val < 12
  · exact h2 i (by omega) b
  by_cases c : i.val < 13
  · exact h3 i (by omega) c
  · exact h4 i (by omega) (by omega)

/-- The invariant of the machine looks at no host move. -/
theorem inv_host {s : State} (hI : Inv s) (r : List HostMove) : Inv { s with host := r } :=
  ⟨fun sp => by have := hI.memories sp; cases sp <;> exact this, hI.fault, hI.cleared,
    fun hb => ⟨(hI.held hb).1, (hI.held hb).2.1, fun sp => by have := (hI.held hb).2.2 sp; cases sp <;> exact this⟩, hI.bounded, hI.placed⟩

/-- A point of the schedule looks at no host move. -/
theorem runPoint_host {q p n : Nat} {c0 c : Word} {s : State} (h : RunPoint q p n c0 c s) (r : List HostMove) :
    RunPoint q p n c0 c { s with host := r } :=
  ⟨h.seq, h.ctr0, h.ctr, h.pos, h.inLen, h.bounded, h.start, h.checked, h.boundary, h.body, h.last, h.counter, h.consts, h.key,
    h.count, h.nonce, h.saved, h.stream⟩

end Sys2Proof.Machine
end

