-- ==== Sys2Proof/Tests/Slice0.lean ====
section
/-! SUPPORT. Tests: expected values are those of spec/95_test_vectors.md and of the examples of the rules cited. After them, for
every statement that has hypotheses, a witness: a concrete state and operands that meet them all. -/

namespace Sys2Proof.Tests
open Sys2Proof.Machine

/-! ## Helpers -/

/-- The next state of an outcome. -/
def nextOf : StepOutcome → Option State
  | .next t => some t
  | .fault _ => none
  | .refused _ => none

/-- The refusal of an outcome. -/
def refusalOf : StepOutcome → Option Refusal
  | .next _ => none
  | .fault _ => none
  | .refused r => some r

/-- The fault of an outcome. -/
def faultOf : StepOutcome → Option Fault
  | .next _ => none
  | .fault r => some r
  | .refused _ => none

/-- After reset, with the five operands written. -/
def setUp (k n i o : Nat) (c : Word) : State :=
  { State.reset with ctr0 := some c, keyLen := some k, nonceLen := some n, inLen := some i, outLen := some o }

/-- Right after an accepted `STREAM` with lengths that pass the check. -/
def started (n : Nat) (c : Word) : State := startRun c (setUp 32 12 n n c)

/-- In a run, at index `q`, with every internal location holding a value and `p` of `n` bytes processed. -/
def midRun (q : BitVec 7) (p n : Nat) (c0 c : Word) : State :=
  { started n c0 with
    x := Vector.replicate 16 (some 0#32)
    sv := Vector.replicate 16 (some 0#32)
    ks := Vector.replicate 64 (some 0#8)
    seq := q
    pos := some p
    ctr := some c }

/-- The key `00 01 .. 1f`. -/
def countingKey : Memory := (List.range 31).map fun a => (a + 1, BitVec.ofNat 8 (a + 1))

/-- The nonce `00 00 00 09 00 00 00 4a 00 00 00 00`. -/
def sampleNonce : Memory := [(3, 0x09#8), (7, 0x4A#8)]

/-! ## Well-formedness: an ill-formed term for each check -/

theorem test_wf_refuses_qr_ab : (Instr.qr 0 0 1 2).illFormed = some .equalIndices := by decide
theorem test_wf_refuses_qr_ac : (Instr.qr 3 0 3 2).illFormed = some .equalIndices := by decide
theorem test_wf_refuses_qr_ad : (Instr.qr 3 0 2 3).illFormed = some .equalIndices := by decide
theorem test_wf_refuses_qr_bc : (Instr.qr 3 1 1 2).illFormed = some .equalIndices := by decide
theorem test_wf_refuses_qr_bd : (Instr.qr 3 1 2 1).illFormed = some .equalIndices := by decide
theorem test_wf_refuses_qr_cd : (Instr.qr 0 1 15 15).illFormed = some .equalIndices := by decide
theorem test_wf_refuses_bdone_93 : (Instr.bdone 93#8).illFormed = some .targetAbove := by decide
theorem test_wf_refuses_jmp_255 : (Instr.jmp 255#8).illFormed = some .targetAbove := by decide
theorem test_wf_accepts_edges : (Instr.qr 15 14 13 12).wf ∧ (Instr.bdone 92#8).wf ∧ (Instr.jmp 0#8).wf := by decide

/-! ## Decoding: a word for each constructor, written from rules R68 to R70, and the words of section 9 -/

theorem test_decode_stream : decodeCommand 0x01#8 = .ok .stream := by decide
theorem test_decode_check : decodeWord 0b00000001_00000000_00000000_00000000#32 = .ok .check := by decide
theorem test_decode_ldconst : decodeWord 0b00000010_00000000_00000000_00000000#32 = .ok .ldconst := by decide
theorem test_decode_ldkey : decodeWord 0b00000011_00000000_00000000_00000000#32 = .ok .ldkey := by decide
theorem test_decode_ldctr : decodeWord 0b00000100_00000000_00000000_00000000#32 = .ok .ldctr := by decide
theorem test_decode_ldnonce : decodeWord 0b00000101_00000000_00000000_00000000#32 = .ok .ldnonce := by decide
theorem test_decode_save : decodeWord 0b00000110_00000000_00000000_00000000#32 = .ok .save := by decide
theorem test_decode_qr : decodeWord 0b00000111_00000000_0001_0110_1011_1100#32 = .ok (.qr 1 6 11 12) := by decide
theorem test_decode_qr_high : decodeWord 0x0700FEDC#32 = .ok (.qr 15 14 13 12) := by decide
theorem test_decode_feedfwd : decodeWord 0b00001000_00000000_00000000_00000000#32 = .ok .feedfwd := by decide
theorem test_decode_ser : decodeWord 0b00001001_00000000_00000000_00000000#32 = .ok .ser := by decide
theorem test_decode_xorchunk : decodeWord 0b00001010_00000000_00000000_00000000#32 = .ok .xorchunk := by decide
theorem test_decode_ctrinc : decodeWord 0b00001011_00000000_00000000_00000000#32 = .ok .ctrinc := by decide
theorem test_decode_bdone : decodeWord 0b00001100_00000000_00000000_01011100#32 = .ok (.bdone 92#8) := by decide
theorem test_decode_jmp : decodeWord 0b00001101_00000000_00000000_00000001#32 = .ok (.jmp 1#8) := by decide
theorem test_decode_endrun : decodeWord 0b00001110_00000000_00000000_00000000#32 = .ok .endrun := by decide

theorem test_reserved_opcodes :
    decodeWord 0x00000000#32 = .error .opcode ∧ decodeWord 0x0F000000#32 = .error .opcode ∧
    decodeWord 0xFFFFFFFF#32 = .error .opcode := by decide
theorem test_reserved_fields :
    decodeWord 0x01000001#32 = .error .operandField ∧ decodeWord 0x0701048C#32 = .error .mustBeZero ∧
    decodeWord 0x0C00015C#32 = .error .targetField := by decide
theorem test_reserved_operands :
    decodeWord 0x07000000#32 = .error .equalIndices ∧ decodeWord 0x07001123#32 = .error .equalIndices ∧
    decodeWord 0x0C00005D#32 = .error .targetAbove := by decide
theorem test_reserved_commands :
    decodeCommand 0x00#8 = .error .command ∧ decodeCommand 0x02#8 = .error .command ∧
    decodeCommand 0xFF#8 = .error .command := by decide
theorem test_table_word : decodeTableWord 32 0x0700048C = some (.qr 0 4 8 12) ∧ decodeTableWord 8 1 = some .stream ∧
    decodeTableWord 32 0x0C00005D = none ∧ decodeTableWord 8 0x101 = none := by decide

/-! ## The schedule ROM (R76) -/

theorem test_rom_length : rom.length = 93 := by decide
theorem test_rom_encodes : romOps.map encode = rom.map Code.word := by decide
theorem test_rom_edges : rom[0]? = some 0x01000000#32 ∧ rom[1]? = some 0x0C00005C#32 ∧ rom[86]? = some 0x0700349E#32 ∧
    rom[91]? = some 0x0D000001#32 ∧ rom[92]? = some 0x0E000000#32 := by decide

/-! ## Word operators, byte order, the pure functions (sections 2, 3 and 6) -/

theorem test_add32 : add32 0xFFFFFFFF#32 1#32 = 0#32 ∧ add32 0x77777777#32 0x01234567#32 = 0x789ABCDE#32 := by decide
theorem test_xor32 : xor32 0x12345678#32 0xF0F0F0F0#32 = 0xE2C4A688#32 := by decide
theorem test_rotl32 : rotl32 0x7998BFDA#32 16 = 0xBFDA7998#32 ∧ rotl32 0x7998BFDA#32 12 = 0x8BFDA799#32 ∧
    rotl32 0x7998BFDA#32 8 = 0x98BFDA79#32 ∧ rotl32 0x7998BFDA#32 7 = 0xCC5FED3C#32 := by decide
theorem test_le32 : le32 0x00#8 0x01#8 0x02#8 0x03#8 = 0x03020100#32 := by decide
theorem test_byteOf : byteOf 0 0x12345678#32 = 0x78#8 ∧ byteOf 3 0x12345678#32 = 0x12#8 := by decide
theorem test_qrFn_q1 : qrFn 0x11111111#32 0x01020304#32 0x9B8D6F43#32 0x01234567#32 =
    (0xEA2A92F4#32, 0xCB1CF8CE#32, 0x4581472E#32, 0x5881C4BB#32) := by decide
theorem test_qrFn_q3 : qrFn 0xFFFFFFFF#32 0xFFFFFFFF#32 0xFFFFFFFF#32 0xFFFFFFFF#32 =
    (0xF0000FFD#32, 0x88790878#32, 0x0110FDEF#32, 0x010FFDF0#32) := by decide
theorem test_qrFn_q8 : qrFn 0x80000000#32 0x80000000#32 0x80000000#32 0x80000000#32 =
    (0x08000000#32, 0x40400444#32, 0x80808008#32, 0x00800008#32) := by decide

/-! ## Reset (R37, R200) -/

theorem test_reset_status : State.reset.status = .idle ∧ State.reset.fault = 0#3 ∧ State.reset.seq = 0#7 ∧
    State.reset.x[0] = none ∧ State.reset.ctr0 = none ∧ State.reset.inLen = none := by decide
theorem test_reset_idle : (nextOf (step State.reset)) = some State.reset := by decide
theorem test_reset_from_halt :
    (nextOf (step { raiseViolation 5#3 (started 4 0#32) with host := [.reset] })).map (fun t => (t.status, t.fault, t.inLen)) =
      some (.idle, 0#3, none) := by decide

/-! ## One step of each instruction -/

theorem test_stream : (nextOf (exec .stream (setUp 32 12 65 65 7#32))).map (fun t => (t.status, t.seq, t.ctr, t.pos)) =
    some (.busy, 0#7, some 7#32, some 0) := by decide
theorem test_stream_no_operand : refusalOf (exec .stream State.reset) = some (.noValue .ctr0) := by decide

/-- F4: all three causes at once. -/
theorem test_check_f4 : (nextOf (exec .check (startRun 0#32 (setUp 16 16 4 3 0#32)))).map (fun t => (t.status, t.fault, t.seq, t.ctr)) =
    some (.halt, 7#3, 0#7, none) := by decide
/-- F6: zero-length buffers pass. -/
theorem test_check_f6 : (nextOf (exec .check (started 0 0#32))).map (fun t => (t.status, t.fault, t.seq)) =
    some (.busy, 0#3, 1#7) := by decide

theorem test_ldconst : (nextOf (exec .ldconst (started 0 0#32))).map (fun t => [t.x[0], t.x[1], t.x[2], t.x[3], t.x[4]]) =
    some [some 0x61707865#32, some 0x3320646E#32, some 0x79622D32#32, some 0x6B206574#32, none] := by decide

/-- I1: the first and the last key word. -/
theorem test_ldkey : (nextOf (exec .ldkey { started 0 1#32 with key := countingKey })).map (fun t => [t.x[3], t.x[4], t.x[11], t.x[12]]) =
    some [none, some 0x03020100#32, some 0x1F1E1D1C#32, none] := by decide
theorem test_ldkey_short : faultOf (exec .ldkey (startRun 0#32 (setUp 31 12 0 0 0#32))) = some (.outsideSpace .key 31) := by decide

/-- `LDKEY` reads bytes and no length register (R20, R91): a `KEY_LEN` without a value does not stop it. -/
theorem test_ldkey_no_length : (nextOf (exec .ldkey { State.reset with key := countingKey })).map (fun t => t.x[11]) =
    some (some 0x1F1E1D1C#32) := by decide

theorem test_ldctr : (nextOf (exec .ldctr (started 0 0xFFFFFFFF#32))).map (fun t => [t.x[11], t.x[12], t.x[13]]) =
    some [none, some 0xFFFFFFFF#32, none] := by decide

/-- I1: the three nonce words. -/
theorem test_ldnonce : (nextOf (exec .ldnonce { started 0 1#32 with nonce := sampleNonce })).map
    (fun t => [t.x[12], t.x[13], t.x[14], t.x[15]]) = some [none, some 0x09000000#32, some 0x4A000000#32, some 0#32] := by decide

/-- The state before `QR 2,7,8,13` in Q10. -/
def q10 : Vector Word 16 := #v[
  0x879531E0#32, 0xC5ECF37D#32, 0x516461B1#32, 0xC9A62F8A#32, 0x44C20EF3#32, 0x3390AF7F#32, 0xD9FC690B#32, 0x2A5F714C#32,
  0x53372767#32, 0xB00A5631#32, 0x974C541A#32, 0x359E9963#32, 0x5C971061#32, 0x3D631689#32, 0x2098D9D6#32, 0x91DBD320#32]

/-- Q10: the four words written, and one of the words left alone. -/
theorem test_qr_q10 : (nextOf (exec (.qr 2 7 8 13) { started 0 0#32 with x := q10.map some })).map
    (fun t => [t.x[2], t.x[7], t.x[8], t.x[13], t.x[3]]) =
    some [some 0xBDB886DC#32, some 0xCFACAFD2#32, some 0xE46BEA80#32, some 0xCCC07C79#32, some 0xC9A62F8A#32] := by decide +kernel
/-- Q1 spread over words 15, 3, 9 and 0: the order of the operands counts. -/
theorem test_qr_order : (nextOf (exec (.qr 15 3 9 0) { started 0 0#32 with
    x := #v[some 0x01234567#32, none, none, some 0x01020304#32, none, none, none, none, none, some 0x9B8D6F43#32,
      none, none, none, none, none, some 0x11111111#32] })).map (fun t => [t.x[15], t.x[3], t.x[9], t.x[0]]) =
    some [some 0xEA2A92F4#32, some 0xCB1CF8CE#32, some 0x4581472E#32, some 0x5881C4BB#32] := by decide

theorem test_save : (nextOf (exec .save { started 0 0#32 with x := q10.map some })).map (fun t => (t.sv, t.x)) =
    some (q10.map some, q10.map some) := by decide +kernel
theorem test_save_no_value : refusalOf (exec .save { started 0 0#32 with x := (q10.map some).set 5 none }) =
    some (.noValue (.x 5)) := by decide +kernel

/-- P2's last sum, and a sum that overflows. -/
theorem test_feedfwd : (nextOf (exec .feedfwd { midRun 87#7 0 1 0#32 0#32 with
    x := ((Vector.replicate 16 0#32).set 12 0x6B0D58A3#32 |>.set 0 0xFFFFFFFF#32).map some
    sv := ((Vector.replicate 16 0#32).set 12 1#32 |>.set 0 2#32).map some })).map (fun t => [t.x[12], t.x[0], t.x[1]]) =
    some [some 0x6B0D58A4#32, some 1#32, some 0#32] := by decide +kernel

/-- S2: words 0, 4 and 5. -/
theorem test_ser : (nextOf (exec .ser { midRun 88#7 0 1 0#32 0#32 with
    x := ((Vector.replicate 16 0#32).set 0 0x80000001#32 |>.set 4 0xFF000000#32 |>.set 5 0x12345678#32).map some })).map
    (fun t => [t.ks[0], t.ks[3], t.ks[16], t.ks[19], t.ks[20], t.ks[23]]) =
    some [some 0x01#8, some 0x80#8, some 0x00#8, some 0xFF#8, some 0x78#8, some 0x12#8] := by decide +kernel

/-- The example of R154: one byte left, at 64. -/
theorem test_xorchunk_last : (nextOf (exec .xorchunk { midRun 89#7 64 65 0#32 0#32 with
    inp := [(64, 0xC6#8)], out := [(63, 0x11#8), (65, 0x22#8)], ks := Vector.replicate 64 (some 0x3A#8) })).map
    (fun t => (t.out, t.pos)) = some ([(63, 0x11#8), (64, 0xFC#8), (65, 0x22#8)], some 65) := by decide
/-- An input byte equal to the keystream byte gives `0x00`, over what `OUT` held. -/
theorem test_xorchunk_zero : (nextOf (exec .xorchunk { midRun 89#7 0 1 0#32 0#32 with
    inp := [(0, 0x3A#8)], out := [(0, 0x77#8)], ks := Vector.replicate 64 (some 0x3A#8) })).map
    (fun t => (t.out, t.pos)) = some ([], some 1) := by decide

/-- R52: in place, the input byte is overwritten with the output byte, and the field `out` is not touched. -/
theorem test_xorchunk_in_place : (nextOf (exec .xorchunk { midRun 89#7 64 65 0#32 0#32 with
    placement := .same, inp := [(63, 0x11#8), (64, 0xC6#8)], ks := Vector.replicate 64 (some 0x3A#8) })).map
    (fun t => (t.inp, t.out, byteAt .out 64 t, byteAt .inp 64 t)) =
      some ([(63, 0x11#8), (64, 0xFC#8)], [], 0xFC#8, 0xFC#8) := by decide
/-- R52: a shifted overlap is refused. -/
theorem test_stream_shifted : refusalOf (exec .stream { setUp 32 12 65 65 7#32 with placement := .shifted }) =
    some .shiftedOverlap := by decide

theorem test_ctrinc_wraps : (nextOf (exec .ctrinc (midRun 90#7 0 1 0#32 0xFFFFFFFF#32))).map (·.ctr) = some (some 0#32) := by decide
theorem test_ctrinc : (nextOf (exec .ctrinc (midRun 90#7 0 1 0#32 0xFFFFFFFE#32))).map (·.ctr) = some (some 0xFFFFFFFF#32) := by decide

theorem test_bdone_taken : (nextOf (exec (.bdone 92#8) (midRun 1#7 65 65 0#32 0#32))).map (·.seq) = some 92#7 := by decide
theorem test_bdone_not_taken : (nextOf (exec (.bdone 92#8) (midRun 1#7 64 65 0#32 0#32))).map (·.seq) = some 2#7 := by decide

theorem test_jmp : (nextOf (exec (.jmp 1#8) (midRun 91#7 65 65 0#32 0#32))).map (·.seq) = some 1#7 := by decide
theorem test_jmp_93 : refusalOf (exec (.jmp 93#8) (midRun 91#7 65 65 0#32 0#32)) = some (.reserved .targetAbove) := by decide

theorem test_endrun : (nextOf (exec .endrun (midRun 92#7 65 65 0#32 2#32))).map (fun t => (t.status, t.seq, t.x[0], t.ctr, t.inLen)) =
    some (.done, 92#7, none, none, some 65) := by decide

/-! ## The step and the host -/

/-- P5: the fault path. -/
theorem test_step_p5 : (nextOf (step { startRun 0#32 (setUp 31 12 4 4 0#32) with
    out := [(0, 0xAA#8), (1, 0xBB#8), (2, 0xCC#8), (3, 0xDD#8)] })).map (fun t => (t.status, t.fault, t.seq, t.out)) =
    some (.halt, 1#3, 0#7, [(0, 0xAA#8), (1, 0xBB#8), (2, 0xCC#8), (3, 0xDD#8)]) := by decide
theorem test_step_seq_outside : refusalOf (step (midRun 93#7 0 1 0#32 0#32)) = some (.seqOutside 93#7) := by decide
/-- `CMD = 0xFF` changes nothing. -/
theorem test_command_reserved : (nextOf (step { setUp 32 12 0 0 0#32 with host := [.writeCmd 0xFF#8] })) =
    some (setUp 32 12 0 0 0#32) := by decide
theorem test_host_write_busy : refusalOf (step { started 1 0#32 with host := [.writeCtr0 5#32] }) =
    some (.noSuchMove (.writeCtr0 5#32)) := by decide
/-- In place, a byte filled through `IN` is the byte of `OUT`. -/
theorem test_host_fill_in_place : (nextOf (step { State.reset with placement := .same, host := [.writeByte .inp 3 0x5A#8] })).map
    (fun t => (byteAt .out 3 t, byteAt .key 3 t)) = some (0x5A#8, 0#8) := by decide
theorem test_read_cmd : refusalOf (step { State.reset with host := [.readReg .cmd] }) = some .writeOnly := by decide
theorem test_fetch_word : (nextOf (step (State.reset.withFetchWord 32 0x0D00005C))).map (·.seq) = some 92#7 := by decide
/-- `SAVE`, `FEEDFWD`, `SER` and a `QR`, each placed after reset. -/
theorem test_fetch_reads : ∀ w ∈ [0x06000000, 0x08000000, 0x09000000, 0x0700048C],
    (nextOf (step (State.reset.withFetchWord 32 w))).map (·.seq) = some 7#7 := by decide +kernel
theorem test_fetch_command : (nextOf (step (State.reset.withFetchWord 8 1))).map (·.status) = some .busy := by decide

/-! ## The assembler (R84, R85) -/

theorem test_assemble_qr : assembleLine "QR 1, 5, 9, 13 ; second column".toList = some [.qr 1 5 9 13] := by decide
theorem test_assemble_pseudo : (assembleLine "BLOCK".toList).map List.length = some 87 := by decide
theorem test_assemble_refuses : assembleLine "QR 0,0,1,2".toList = none ∧ assembleLine "JMP 93".toList = none ∧
    assembleLine "STREAM".toList = none := by decide

/-! ## Witnesses: the hypotheses of each statement are met -/

theorem witness_DecodeOfEncode : (Instr.qr 15 14 13 12).wf = true ∧ (Instr.bdone 92#8).wf = true ∧ Instr.stream.wf = true := by decide

theorem witness_EncodeOfDecode : decodeWord 0x0D00005C#32 = .ok (.jmp 92#8) := by decide

theorem witness_ReservedWordRefused :
    let s := { started 0 0#32 with testProgram := some [0x0C00005D#32] }
    s.host = [] ∧ s.status = .busy ∧ s.seq.toNat ≤ 92 ∧ (program s)[s.seq.toNat]? = some 0x0C00005D#32 ∧
      ¬ NotReserved 0x0C00005D#32 := by
  refine ⟨rfl, rfl, by decide, rfl, ?_⟩
  simp [NotReserved]

theorem witness_AssembleOfLine : (Instr.qr 15 14 13 12).wf = true ∧
    lineOf (.qr 15 14 13 12) = some "QR 15,14,13,12".toList ∧ lineOf (.jmp 92#8) = some "JMP 92".toList := by decide

theorem witness_StepRuns_core : let s := midRun 92#7 1 1 0#32 1#32
    s.host = [] ∧ s.status = .busy ∧ s.seq.toNat ≤ 92 ∧ (program s)[s.seq.toNat]? = some 0x0E000000#32 ∧
      decodeWord 0x0E000000#32 = .ok .endrun ∧ s.testProgram = none := by decide

theorem witness_StepRuns_pass : let s := { started 1 0#32 with host := [.pass] }
    s.host = [.pass] ∧ s.status = .busy ∧ s.seq.toNat ≤ 92 ∧ (program s)[s.seq.toNat]? = some 0x01000000#32 ∧
      decodeWord 0x01000000#32 = .ok .check := by decide

theorem witness_StepRuns_command : let s := { setUp 32 12 0 0 0#32 with host := [.writeCmd 0x01#8] }
    s.host = [.writeCmd 0x01#8] ∧ decodeCommand 0x01#8 = .ok .stream := by decide

theorem witness_StepRuns_reserved : { State.reset with host := [.writeCmd 0x00#8] }.host = [.writeCmd 0x00#8] := rfl

theorem witness_SequencerAdvances_bdone : let s := midRun 1#7 1 1 0#32 1#32
    ∃ t, exec (.bdone 92#8) s = .next t ∧ s.pos = s.inLen := ⟨_, rfl, rfl⟩

theorem witness_SequencerAdvances_bdone_not : let s := midRun 1#7 0 1 0#32 0#32
    ∃ t, exec (.bdone 92#8) s = .next t ∧ s.pos ≠ s.inLen := ⟨_, rfl, by decide⟩

theorem witness_SequencerAdvances_check : (∃ t, exec .check (started 0 0#32) = .next t) ∧ LengthsPass 32 12 0 0 ∧
    (∃ t, exec .check (startRun 0#32 (setUp 33 12 0 0 0#32)) = .next t) ∧ ¬ LengthsPass 33 12 0 0 :=
  ⟨⟨_, rfl⟩, ⟨rfl, rfl, rfl⟩, ⟨_, rfl⟩, by simp [LengthsPass]⟩

theorem witness_SequencerAdvances_others : (∃ t, exec .stream (started 0 0#32) = .next t) ∧
    (∃ t, exec .ctrinc (midRun 90#7 0 1 0#32 0#32) = .next t) ∧ ∃ t, exec (.jmp 92#8) State.reset = .next t :=
  ⟨⟨_, rfl⟩, ⟨_, rfl⟩, ⟨_, rfl⟩⟩

theorem witness_SequencerAdvances_outside : let s := midRun 93#7 0 1 0#32 0#32
    s.host = [] ∧ s.status = .busy ∧ 92 < s.seq.toNat := by decide

theorem witness_SequencerAdvances_end : let s := midRun 92#7 0 0 0#32 0#32
    s.host = [] ∧ s.status = .busy ∧ s.testProgram = none ∧ s.seq = 92#7 := by decide

theorem witness_LdkeyLoadsKeyWords : ∀ n, (started 0 0#32).keyLen = some n → 32 ≤ n := fun _ h => by cases h; decide

theorem witness_LdkeyLoadsKeyWords_none : ∀ n, State.reset.keyLen = some n → 32 ≤ n := fun _ h => by cases h

theorem witness_LdctrLoadsCounter : (started 0 0xFFFFFFFF#32).ctr = some 0xFFFFFFFF#32 := by decide

theorem witness_LdnonceLoadsNonceWords : ∀ n, (started 0 0#32).nonceLen = some n → 12 ≤ n := fun _ h => by cases h; decide

/-- For `InitComputesInitFn` and for `BlockComputesBlockFn`. -/
theorem witness_InitComputesInitFn : let s := { started 1 0#32 with seq := 2#7 }
    Undisturbed s ∧ s.status = .busy ∧ s.seq = 2#7 ∧ s.ctr = some 0#32 ∧ (∀ k, s.keyLen = some k → 32 ≤ k) ∧
      ∀ n, s.nonceLen = some n → 12 ≤ n :=
  ⟨⟨rfl, rfl⟩, rfl, rfl, rfl, fun _ h => by cases h; decide, fun _ h => by cases h; decide⟩

theorem witness_BlockComputesBlockFn : let s := { started 64 0xFFFFFFFF#32 with seq := 2#7 }
    Undisturbed s ∧ s.status = .busy ∧ s.seq = 2#7 ∧ s.ctr = some 0xFFFFFFFF#32 ∧ (∀ k, s.keyLen = some k → 32 ≤ k) ∧
      ∀ n, s.nonceLen = some n → 12 ≤ n :=
  ⟨⟨rfl, rfl⟩, rfl, rfl, rfl, fun _ h => by cases h; decide, fun _ h => by cases h; decide⟩

theorem witness_InitFnInjective : let k : Vector Byte 32 := Vector.replicate 32 1#8
    let n : Vector Byte 12 := Vector.replicate 12 2#8
    initFn k n 3#32 = initFn k n 3#32 := rfl

theorem witness_WordOperators : (1 ≤ 7 ∧ 7 < 32) ∧ (1 ≤ 31 ∧ 31 < 32) ∧ 0 < 32 := by decide

theorem witness_ByteOrderFunctions : 0 < 4 ∧ 3 < 4 := by decide

theorem witness_QrRunsTwelveAssignments : pairwiseDifferent 15 0 5 10 = true ∧
    ∀ i ∈ [(15 : Fin 16), 0, 5, 10], (midRun 7#7 0 1 0#32 0#32).x[i] = some (Vector.replicate 16 (0#32 : Word))[i] := by decide

/-- For `IllFormedRefused`, with `b = d` alone, and the first target above the ROM. -/
theorem witness_IllFormedRefused : let a : Fin 16 := 0
    let b : Fin 16 := 15
    let c : Fin 16 := 1
    let d : Fin 16 := 15
    (a = b ∨ a = c ∨ a = d ∨ b = c ∨ b = d ∨ c = d) ∧ 92 < (93#8).toNat := by decide

theorem witness_TwelveAssignmentsAreQrFn : pairwiseDifferent 3 4 9 14 = true := by decide

theorem witness_DisjointQuarterRoundsCommute : pairwiseDifferent 0 4 8 12 = true ∧ pairwiseDifferent 1 5 9 13 = true ∧
    ∀ i ∈ [(0 : Fin 16), 4, 8, 12], i ∉ [(1 : Fin 16), 5, 9, 13] := by decide

theorem witness_DisjointQuarterRoundsCommute_round : .qr 3 4 9 14 ∈ diagRoundOps ∧ diagRoundOps ∈ [colRoundOps, diagRoundOps] := by
  decide

theorem witness_SaveCopiesState_once : rom[6]? = some 0x06000000#32 := by decide

theorem witness_SaveCopiesState : ∀ i : Fin 16, (midRun 6#7 0 1 0#32 0#32).x[i].isSome = true := by decide

theorem witness_FeedfwdAddsCopy : let s := midRun 87#7 0 1 0#32 0#32
    (∀ i : Fin 16, s.x[i] = some (Vector.replicate 16 (0#32 : Word))[i]) ∧
      ∀ i : Fin 16, s.sv[i] = some (Vector.replicate 16 (0#32 : Word))[i] := by decide

theorem witness_SerSerializesState : ∀ i : Fin 16,
    (midRun 88#7 0 1 0#32 0#32).x[i] = some (Vector.replicate 16 (0#32 : Word))[i] := by decide

theorem witness_SerFnBijective : (0 < 16 ∧ 0 < 4) ∧ 15 < 16 ∧ 3 < 4 := by decide

theorem witness_StreamStartsRun : let s := setUp 32 12 0 0 5#32
    (s.status = .idle ∨ s.status = .done) ∧ s.ctr0 = some 5#32 ∧ (∀ sp, (spaceLen sp s).isSome = true) ∧
      s.placement ≠ .shifted :=
  ⟨by decide, by decide, fun sp => by cases sp <;> decide, by decide⟩

theorem witness_StreamStartsRun_done : let s := finishRun (started 0 5#32)
    (s.status = .idle ∨ s.status = .done) ∧ s.ctr0 = some 5#32 ∧ (∀ sp, (spaceLen sp s).isSome = true) ∧
      s.placement ≠ .shifted :=
  ⟨by decide, by decide, fun sp => by cases sp <;> decide, by decide⟩

theorem witness_StreamStartsRun_busy : (started 0 0#32).status = .busy ∨ (started 0 0#32).status = .halt := by decide

theorem witness_StreamStartsRun_halt : let s := raiseViolation 1#3 (started 0 0#32)
    s.status = .busy ∨ s.status = .halt := by decide

theorem witness_StreamStartsRun_turn : let s := midRun 92#7 0 0 0#32 0#32
    s.status = .busy ∧ s.testProgram = none ∧ rom[s.seq.toNat]? = some 0x0E000000#32 ∧
      decodeWord 0x0E000000#32 = .ok .endrun := by decide

theorem witness_CommandIgnored_reserved : 0x02#8 ≠ 0x01#8 ∨ State.reset.status = .busy ∨ State.reset.status = .halt := by decide

theorem witness_CommandIgnored_busy : let s := started 0 0#32
    0x01#8 ≠ 0x01#8 ∨ s.status = .busy ∨ s.status = .halt := by decide

theorem witness_CommandIgnored_halt : let s := raiseViolation 1#3 (started 0 0#32)
    0x01#8 ≠ 0x01#8 ∨ s.status = .busy ∨ s.status = .halt := by decide

theorem witness_StreamWithoutOperandRefused_ctr0 :
    (State.reset.status = .idle ∨ State.reset.status = .done) ∧ State.reset.ctr0 = none := by decide

theorem witness_StreamWithoutOperandRefused_length : let s := { setUp 32 12 0 0 0#32 with outLen := none }
    (s.status = .idle ∨ s.status = .done) ∧ ∃ sp, spaceLen sp s = none := ⟨by decide, .out, by decide⟩

theorem witness_CheckTakesViolation_pass : let s := started 0 0#32
    s.keyLen = some 32 ∧ s.nonceLen = some 12 ∧ s.inLen = some 0 ∧ s.outLen = some 0 ∧ LengthsPass 32 12 0 0 :=
  ⟨rfl, rfl, rfl, rfl, rfl, rfl, rfl⟩

theorem witness_CheckTakesViolation_fail : let s := startRun 0#32 (setUp 31 13 4 5 0#32)
    s.keyLen = some 31 ∧ s.nonceLen = some 13 ∧ s.inLen = some 4 ∧ s.outLen = some 5 ∧ ¬ LengthsPass 31 13 4 5 :=
  ⟨rfl, rfl, rfl, rfl, by simp [LengthsPass]⟩

theorem witness_BdoneBranches_taken : let s := midRun 1#7 65 65 0#32 0#32
    (92#8).toNat ≤ 92 ∧ s.pos = some 65 ∧ s.inLen = some 65 := by decide

theorem witness_BdoneBranches_not_taken : let s := midRun 1#7 64 65 0#32 0#32
    (92#8).toNat ≤ 92 ∧ s.pos = some 64 ∧ s.inLen = some 65 ∧ 64 ≠ 65 := by decide

/-- For `JmpGoesToTarget`: the last target. -/
theorem witness_JmpGoesToTarget : (92#8).toNat ≤ 92 := by decide

/-- A last chunk of one byte that ends where both buffers end. -/
theorem witness_XorchunkWritesChunk : let s := midRun 89#7 64 65 0#32 0#32
    s.pos = some 64 ∧ s.inLen = some 65 ∧ (∀ o, s.outLen = some o → 64 + min 64 (65 - 64) ≤ o) ∧
      (∀ k : Fin 64, k.val < min 64 (65 - 64) → s.ks[k] = some (Vector.replicate 64 (0#8 : Byte))[k]) ∧
      s.placement ≠ .shifted := ⟨rfl, rfl, fun _ h => by cases h; decide, by decide, by decide⟩

/-- The same where `IN` and `OUT` are the same bytes. -/
theorem witness_XorchunkWritesChunk_inPlace : let s := { midRun 89#7 64 65 0#32 0#32 with placement := .same }
    s.pos = some 64 ∧ s.inLen = some 65 ∧ (∀ o, s.outLen = some o → 64 + min 64 (65 - 64) ≤ o) ∧
      (∀ k : Fin 64, k.val < min 64 (65 - 64) → s.ks[k] = some (Vector.replicate 64 (0#8 : Byte))[k]) ∧
      s.placement ≠ .shifted := ⟨rfl, rfl, fun _ h => by cases h; decide, by decide, by decide⟩

theorem witness_CtrincWraps : (midRun 90#7 0 1 0#32 0xFFFFFFFF#32).ctr = some 0xFFFFFFFF#32 := by decide

theorem atRunStart_started (n : Nat) (c : Word) : AtRunStart c n (started n c) :=
  ⟨rfl, rfl, rfl, rfl, rfl, rfl, rfl, rfl, rfl, (by decide : Placement.apart ≠ .shifted)⟩

theorem atRunStart_inPlace (n : Nat) (c : Word) : AtRunStart c n { started n c with placement := .same } :=
  ⟨rfl, rfl, rfl, rfl, rfl, rfl, rfl, rfl, rfl, (by decide : Placement.same ≠ .shifted)⟩

theorem witness_RunComputesStreamFn : let s := started 65 0xFFFFFFFF#32
    AtRunStart 0xFFFFFFFF#32 65 s ∧ Undisturbed s ∧ 184 < 3 + 91 * chunks 65 := ⟨atRunStart_started _ _, ⟨rfl, rfl⟩, by decide⟩

theorem witness_RunComputesStreamFn_empty : let s := started 0 0#32
    AtRunStart 0#32 0 s ∧ Undisturbed s ∧ 2 < 3 + 91 * chunks 0 := ⟨atRunStart_started _ _, ⟨rfl, rfl⟩, by decide⟩

/-- For `RunComputesStreamFn`, with `IN` and `OUT` the same bytes. -/
theorem witness_RunComputesStreamFn_inPlace : let s := { started 65 0#32 with placement := .same }
    AtRunStart 0#32 65 s ∧ Undisturbed s := ⟨atRunStart_inPlace _ _, rfl, rfl⟩

theorem witness_InPlaceSameResult : let s := started 65 0xFFFFFFFF#32
    AtRunStart 0xFFFFFFFF#32 65 s ∧ Undisturbed s ∧ s.placement = .apart ∧ 65 ≤ 65 :=
  ⟨atRunStart_started _ _, ⟨rfl, rfl⟩, rfl, le_refl _⟩

theorem witness_ShiftedOverlapRefused_stream : let s := { setUp 32 12 65 65 0#32 with placement := .shifted }
    s.placement = .shifted ∧ (s.status = .idle ∨ s.status = .done) ∧ s.ctr0 = some 0#32 ∧ ∀ sp, (spaceLen sp s).isSome = true :=
  ⟨rfl, by decide, rfl, fun sp => by cases sp <;> decide⟩

theorem witness_ShiftedOverlapRefused_xorchunk : let s := { midRun 89#7 64 65 0#32 0#32 with placement := .shifted }
    s.placement = .shifted ∧ s.pos = some 64 ∧ s.inLen = some 65 := by decide

theorem witness_ShiftedOverlapRefused_fill :
    let s := { State.reset with placement := .shifted, host := [.writeByte .inp 0 1#8] }
    let t := { finishRun (started 1 0#32) with placement := .shifted, host := [.writeByte .out 0 1#8] }
    s.placement = .shifted ∧ s.host = [.writeByte .inp 0 1#8] ∧ (s.status = .idle ∨ s.status = .done) ∧
    t.placement = .shifted ∧ t.host = [.writeByte .out 0 1#8] ∧ (t.status = .idle ∨ t.status = .done) := by decide

theorem witness_WordsWrittenOnlyWhereNamed_kept :
    (∃ t, exec .ldctr (midRun 4#7 0 1 0#32 7#32) = .next t) ∧ writesX .ldctr 11 = false := ⟨⟨_, rfl⟩, by decide⟩

theorem witness_WordsWrittenOnlyWhereNamed_ended :
    (∃ t, exec .endrun (midRun 92#7 0 1 0#32 7#32) = .next t) ∧ writesX .endrun 0 = false := ⟨⟨_, rfl⟩, by decide⟩

theorem witness_WordsWrittenOnlyWhereNamed_host : ∃ t, hostTurn (.writeLen .inp 0) State.reset = .next t := ⟨_, rfl⟩

theorem witness_CoreWritesOnlyOut : (nextOf (exec .xorchunk (midRun 89#7 0 1 0#32 0#32))).isSome = true ∧
    (nextOf (exec .ctrinc (midRun 90#7 0 1 0#32 0#32))).isSome = true := by decide

theorem witness_CoreWritesOnlyOut_same : let s := { midRun 89#7 0 1 0#32 0#32 with placement := .same }
    (nextOf (exec .xorchunk s)).isSome = true ∧ s.placement = .same := by decide

theorem witness_OnlyCheckRaises : let s := startRun 0#32 (setUp 31 12 0 0 0#32)
    (nextOf (exec .check s)).map (fun t => (t.status, t.fault)) = some (.halt, 1#3) ∧ s.status ≠ .halt ∧ s.fault ≠ 1#3 := by decide

/-- A `STREAM` that clears a cause bit, in a state no run reaches. -/
theorem witness_OnlyCheckRaises_stream : let s := { setUp 32 12 0 0 0#32 with fault := 4#3 }
    (nextOf (exec .stream s)).map (·.fault) = some 0#3 ∧ s.fault ≠ 0#3 := by decide

theorem witness_HaltEndsByResetOnly_reset : let s := { raiseViolation 1#3 (started 0 0#32) with host := [.reset] }
    s.status = .halt ∧ ∃ t, step s = .next t := ⟨by decide, _, rfl⟩

theorem witness_HaltEndsByResetOnly_command : let s := { raiseViolation 1#3 (started 0 0#32) with host := [.writeCmd 0x01#8] }
    s.status = .halt ∧ ∃ t, step s = .next t := ⟨by decide, _, rfl⟩

theorem witness_ViolationStopsBeforeOutput : let s := startRun 0#32 (setUp 32 12 4 5 0#32)
    Undisturbed s ∧ s.status = .busy ∧ s.seq = 0#7 ∧ s.keyLen = some 32 ∧ s.nonceLen = some 12 ∧ s.inLen = some 4 ∧
      s.outLen = some 5 ∧ ¬ LengthsPass 32 12 4 5 ∧ 1 ≤ 1 :=
  ⟨⟨rfl, rfl⟩, rfl, rfl, rfl, rfl, rfl, rfl, by simp [LengthsPass], le_refl _⟩

theorem witness_ReadOfNoValueRefused_ctr : State.reset.ctr = none := by decide

theorem witness_ReadOfNoValueRefused_x : ∃ i : Fin 16, { midRun 6#7 0 1 0#32 0#32 with
    x := (Vector.replicate 16 (some (0#32 : Word))).set 15 none }.x[i] = none := ⟨15, by decide⟩

theorem witness_ReadOfNoValueRefused_s :
    let s := { midRun 87#7 0 1 0#32 0#32 with sv := Vector.replicate 16 none }
    (∀ i : Fin 16, s.x[i].isSome = true) ∧ ∃ i : Fin 16, s.sv[i] = none := ⟨by decide, 0, by decide⟩

theorem witness_ReadOfNoValueRefused_qr : pairwiseDifferent 0 4 8 12 = true ∧
    ∃ i ∈ [(0 : Fin 16), 4, 8, 12], (started 0 0#32).x[i] = none := ⟨by decide, 12, by decide, by decide⟩

theorem witness_ReadOfNoValueRefused_pos : (92#8).toNat ≤ 92 ∧ State.reset.pos = none := by decide

theorem witness_ReadOfNoValueRefused_inLen : let s := { started 0 0#32 with inLen := none }
    (92#8).toNat ≤ 92 ∧ s.pos = some 0 ∧ s.inLen = none := by decide

theorem witness_ReadOfNoValueRefused_check : ∃ sp, spaceLen sp State.reset = none := ⟨.nonce, by decide⟩

theorem witness_ReadOfNoValueRefused_ks : let s := { midRun 89#7 0 1 0#32 0#32 with ks := Vector.replicate 64 none }
    s.pos = some 0 ∧ s.inLen = some 1 ∧ (∀ o, s.outLen = some o → 0 + min 64 (1 - 0) ≤ o) ∧
      (0 : Fin 64).val < min 64 (1 - 0) ∧ s.ks[(0 : Fin 64)] = none ∧ s.placement ≠ .shifted :=
  ⟨rfl, rfl, fun _ h => by cases h; decide, by decide⟩

theorem witness_LoadOutsideSpaceFaults : let s := startRun 0#32 (setUp 31 11 0 0 0#32)
    (s.keyLen = some 31 ∧ 31 < 32) ∧ s.nonceLen = some 11 ∧ 11 < 12 := by decide

theorem witness_HostWrites_ctr0 : let s := { State.reset with host := [.writeCtr0 1#32] }
    s.host = [.writeCtr0 1#32] ∧ (s.status = .idle ∨ s.status = .done) := by decide

theorem witness_HostWrites_length : let s := { finishRun (started 0 0#32) with host := [.writeLen .out 7] }
    s.host = [.writeLen .out 7] ∧ (s.status = .idle ∨ s.status = .done) := by decide

theorem witness_HostWrites_byte : let s := { State.reset with host := [.writeByte .key 0 1#8] }
    s.host = [.writeByte .key 0 1#8] ∧ (s.status = .idle ∨ s.status = .done) ∧
      (Space.key = .key ∨ Space.key = .nonce ∨ s.placement ≠ .shifted) := by decide

theorem witness_HostWrites_byte_shared :
    let s := { State.reset with placement := .same, host := [.writeByte .out 0 1#8] }
    s.host = [.writeByte .out 0 1#8] ∧ (s.status = .idle ∨ s.status = .done) ∧
      (Space.out = .key ∨ Space.out = .nonce ∨ s.placement ≠ .shifted) ∧ SharesBytes s .out .inp := by decide

theorem witness_HostWrites_refused : let s := { started 1 0#32 with host := [.writeCtr0 5#32] }
    s.host = [.writeCtr0 5#32] ∧ (s.status = .busy ∨ s.status = .halt) := by decide

theorem witness_HostWrites_refused_halt : let s := { raiseViolation 1#3 (started 1 0#32) with host := [.writeLen .key 32] }
    s.host = [.writeLen .key 32] ∧ (s.status = .busy ∨ s.status = .halt) := by decide

theorem witness_HostReads_operands : let s := started 65 7#32
    s.ctr0 = some 7#32 ∧ s.keyLen = some 32 ∧ s.nonceLen = some 12 ∧ s.inLen = some 65 ∧ s.outLen = some 65 := by decide

/-- The last byte of `OUT`. -/
theorem witness_HostReads_out : let s := { finishRun (started 65 7#32) with host := [.readOut 64] }
    s.status = .done ∧ (∀ n, s.outLen = some n → 64 < n) ∧ s.host = [.readOut 64] ∧ (nextOf (step s)).isSome = true :=
  ⟨rfl, fun _ h => by cases h; decide, rfl, by decide⟩

/-- A read of `OUT` while `BUSY` goes on. -/
theorem witness_HostReads_out_busy : let s := { started 65 7#32 with host := [.readOut 64] }
    s.host = [.readOut 64] ∧ (∀ n, s.outLen = some n → 64 < n) ∧ (nextOf (step s)).isSome = true :=
  ⟨rfl, fun _ h => by cases h; decide, by decide⟩

theorem witness_HostReads_out_past : let s := { started 65 7#32 with host := [.readOut 65] }
    s.host = [.readOut 65] ∧ s.outLen = some 65 ∧ 65 ≤ 65 := by decide

theorem witness_HostReads_none : State.reset.ctr0 = none := rfl

theorem witness_HostReads_register : let s := { started 65 7#32 with host := [.readReg .status] }
    s.host = [.readReg .status] ∧ (nextOf (step s)).isSome = true := by decide

theorem witness_ResetRestoresState : { midRun 50#7 64 65 0#32 1#32 with host := [.reset] }.host = [.reset] := rfl

theorem witness_NoStepOutsideRun : let s := raiseViolation 1#3 (started 0 0#32)
    s.host = [] ∧ s.status ≠ .busy := by decide

theorem inv_midRun (q : BitVec 7) {p n : Nat} (c0 c : Word) (h : p ≤ n) : Inv (midRun q p n c0 c) where
  memories := fun sp => by cases sp <;> rfl
  fault := by simp [midRun, started, setUp]
  cleared := fun h => absurd rfl h
  held := fun _ => ⟨rfl, rfl, fun sp => by cases sp <;> rfl⟩
  bounded := fun _ => ⟨p, n, rfl, rfl, h⟩
  placed := fun _ => (by decide : Placement.apart ≠ .shifted)

/-- A point inside the second chunk, at the `XORCHUNK`. -/
theorem scheduleInv_xorchunk : ScheduleInv (midRun 89#7 64 65 0xFFFFFFFF#32 0#32) where
  inv := inv_midRun _ _ _ (by decide)
  program := rfl
  point := fun _ => ⟨89, 64, 65, 0xFFFFFFFF#32, 0#32, {
    seq := by decide
    ctr0 := rfl
    ctr := rfl
    pos := rfl
    inLen := rfl
    bounded := by decide
    start := by decide
    checked := fun _ => ⟨rfl, rfl, rfl⟩
    boundary := .inl (by decide)
    body := by decide
    last := by decide
    counter := by decide
    consts := fun _ _ i _ _ => by simp [midRun]
    key := fun _ _ i _ _ => by simp [midRun]
    count := fun _ _ i _ _ => by simp [midRun]
    nonce := fun _ _ i _ _ => by simp [midRun]
    saved := fun _ _ i => by simp [midRun]
    stream := fun _ _ i => by simp [midRun] }⟩

/-- For `StepKeepsInv`. -/
theorem witness_StepKeepsInv : Inv (midRun 90#7 65 65 0#32 1#32) ∧ ∃ t, step (midRun 90#7 65 65 0#32 1#32) = .next t :=
  ⟨inv_midRun _ _ _ (by decide), _, rfl⟩

/-- For `ScheduleNeverStops`. -/
theorem witness_ScheduleNeverStops : ScheduleInv (midRun 89#7 64 65 0xFFFFFFFF#32 0#32) ∧
    (midRun 89#7 64 65 0xFFFFFFFF#32 0#32).host = [] := ⟨scheduleInv_xorchunk, rfl⟩

/-- For the first clause of `StepKeepsScheduleInv`. -/
theorem witness_StepKeepsScheduleInv : ScheduleInv State.reset ∧ ∃ t, step State.reset = .next t := by
  refine ⟨⟨⟨fun sp => reset_wf sp, by decide, fun _ => by simp [InternalCleared, State.reset], ?_, ?_, ?_⟩, rfl, ?_⟩, _, rfl⟩ <;>
    exact fun h => absurd h (by decide)

/-- For the second clause of `StepKeepsScheduleInv`: a read at `OUT_LEN`. -/
theorem witness_StepKeepsScheduleInv_fault : let s := { finishRun (started 0 0#32) with host := [.readOut 0] }
    ScheduleInv s ∧ step s = .fault (.outsideSpace .out 0) := by
  refine ⟨⟨⟨fun sp => by cases sp <;> rfl, by decide, fun _ => by simp [InternalCleared], ?_, ?_, ?_⟩, rfl, ?_⟩, rfl⟩ <;>
    exact fun h => absurd h (by decide)

end Sys2Proof.Tests
end

section
/-! The word operators (R10, R100 to R102) and the byte-order functions (R11) as arithmetic and as bits. -/

namespace Sys2Proof.Machine

/-! ## The word operators -/

@[simp] theorem toNat_add32 (a b : Word) : (add32 a b).toNat = (a.toNat + b.toNat) % 2 ^ 32 := BitVec.toNat_add a b

@[simp] theorem getLsbD_xor32 (a b : Word) (i : Nat) :
    (xor32 a b).getLsbD i = (a.getLsbD i ^^ b.getLsbD i) := BitVec.getLsbD_xor

theorem toNat_rotl32 (v : Word) (n : Nat) :
    (rotl32 v n).toNat = (v.toNat * 2 ^ n % 2 ^ 32) ||| (v.toNat / 2 ^ (32 - n)) := by
  rw [rotl32, BitVec.toNat_or, BitVec.toNat_shiftLeft, BitVec.toNat_ushiftRight, Nat.shiftLeft_eq,
    Nat.shiftRight_eq_div_pow]

theorem rotl32_eq_rotateLeft (v : Word) {n : Nat} (hn : n < 32) : rotl32 v n = v.rotateLeft n := by
  rw [rotl32, BitVec.rotateLeft_def, Nat.mod_eq_of_lt hn]

/-- A bit that stays below bit 32 moves up by `n`; one that would leave at the top comes in at the bottom. -/
theorem getLsbD_rotl32_add_mod (v : Word) {n i : Nat} (hn : n < 32) (hi : i < 32) :
    (rotl32 v n).getLsbD ((i + n) % 32) = v.getLsbD i := by
  rw [rotl32_eq_rotateLeft v hn, BitVec.getLsbD_rotateLeft_of_le hn]
  by_cases wraps : i + n < 32
  · rw [Nat.mod_eq_of_lt wraps]
    simp [wraps]
  · have position : (i + n) % 32 = i + n - 32 := by omega
    have low : i + n - 32 < n := by omega
    have source : 32 - n + (i + n - 32) = i := by omega
    simp [position, low, source]

/-! ## The byte-order functions -/

@[simp] theorem toNat_le32 (b0 b1 b2 b3 : Byte) :
    (le32 b0 b1 b2 b3).toNat = b0.toNat + 2 ^ 8 * b1.toNat + 2 ^ 16 * b2.toNat + 2 ^ 24 * b3.toNat := by
  have h0 := b0.isLt
  have h1 := b1.isLt
  have h2 := b2.isLt
  have h3 := b3.isLt
  rw [le32, BitVec.toNat_ofNat]
  omega

@[simp] theorem toNat_byteOf (k : Nat) (w : Word) : (byteOf k w).toNat = w.toNat / 2 ^ (8 * k) % 2 ^ 8 := by
  rw [byteOf, BitVec.extractLsb'_toNat, Nat.shiftRight_eq_div_pow]

/-- The four bytes of a word are its four digits in base 256, and `le32` sums them by their places. -/
theorem le32_byteOf (w : Word) : le32 (byteOf 0 w) (byteOf 1 w) (byteOf 2 w) (byteOf 3 w) = w := by
  apply BitVec.eq_of_toNat_eq
  have hw := w.isLt
  simp only [toNat_le32, toNat_byteOf]
  omega

/-! ## The obligations -/

/-- Settles O15: the sum, the exclusive-or and the rotation, each by its own lemma. -/
theorem wordOperators : Obligations.WordOperators :=
  ⟨toNat_add32, fun a b i _ => getLsbD_xor32 a b i,
    fun v n _ hn => ⟨toNat_rotl32 v n, fun _ hi => getLsbD_rotl32_add_mod v hn hi⟩⟩

/-- Settles O16: `le32` and `byte_k` by their values, from which the quoted identity of R11 follows. -/
theorem byteOrderFunctions : Obligations.ByteOrderFunctions :=
  ⟨toNat_le32, fun w k _ => toNat_byteOf k w, le32_byteOf⟩

end Sys2Proof.Machine
end

section
/-! Everything a step can do, said once for the CORE's turn and once for the host's; and that every step keeps the machine's
invariant (R26, R33, R34), which the state after reset meets (R37). -/

namespace Sys2Proof.Machine

/-! ## Whose turn it is -/

/-- With no host move to come it is the CORE's turn. -/
theorem step_of_host_nil {s : State} (h : s.host = []) : step s = coreTurn s := by rw [step, turn, h]

/-- A host move to come is made before anything else. -/
theorem step_of_host_cons {s : State} {m : HostMove} {rest : List HostMove} (h : s.host = m :: rest) :
    step s = hostTurn m { s with host := rest } := by rw [step, turn, h]

theorem coreTurn_of_notBusy {s : State} (h : s.status ≠ .busy) : coreTurn s = .next s := if_neg h

/-- The CORE's turn outside a run changes nothing; in a run it executes the instruction it has fetched and decoded. -/
theorem coreTurn_cases {s t : State} (h : coreTurn s = .next t) :
    (s.status ≠ .busy ∧ t = s) ∨
      (s.status = .busy ∧ ∃ w i, fetch s = .next w ∧ decodeWord w = .ok i ∧ exec i s = .next t) := by
  by_cases hb : s.status = .busy
  · rw [coreTurn, if_pos hb, andThen_eq_next_iff] at h
    obtain ⟨w, hw, h⟩ := h
    unfold runWord at h
    split at h
    · exact .inr ⟨hb, w, _, hw, by assumption, h⟩
    · cases h
  · rw [coreTurn_of_notBusy hb] at h
    cases h
    exact .inl ⟨hb, rfl⟩

/-- A write to `CMD` of the one command code executes `STREAM`, and of any other changes nothing (R67, R80). -/
theorem commandWrite_eq (c : BitVec 8) (s : State) :
    commandWrite c s = if c = 0x01#8 then exec .stream s else .next s := by
  by_cases hc : c = 0x01#8 <;> simp [commandWrite, decodeCommand, hc]

/-- The host may write exactly in `IDLE` and `DONE` (R193). -/
theorem hostMayWrite_iff {s : State} : hostMayWrite s = true ↔ s.status = .idle ∨ s.status = .done := by
  simp [hostMayWrite]

theorem notBusy_of_hostMayWrite {s : State} (h : hostMayWrite s = true) : s.status ≠ .busy := by
  intro hb
  simp [hostMayWrite, hb] at h

/-- A `STREAM` that answers a next state was ignored, or has started a run (R80, R150). -/
theorem exec_stream_cases {s t : State} (h : exec .stream s = .next t) : t = s ∨
    ∃ c, s.ctr0 = some c ∧ (∀ sp, (spaceLen sp s).isSome = true) ∧ s.placement ≠ .shifted ∧ t = startRun c s := by
  cases exec_shape h with
  | same _ _ ht => exact .inl ht
  | start _ c hc _ hl hp ht => exact .inr ⟨c, hc, hl, hp, ht⟩
  | halt hi | finish hi | ctr hi | chunk hi => cases hi
  | regs _ _ _ _ hi =>
    obtain ⟨_, hstream, _⟩ := hi
    exact absurd rfl hstream

/-- Every way a host move can answer a next state. -/
inductive HostShape (m : HostMove) (s t : State) : Prop where
  /-- The CORE takes its turn. -/
  | core (hm : m = .pass) (h : coreTurn s = .next t)
  /-- The command `STREAM`, accepted or ignored. -/
  | command (hm : m = .writeCmd 0x01#8) (h : exec .stream s = .next t)
  /-- A read, or a reserved command code. -/
  | kept (hm : (∃ c, m = .writeCmd c ∧ c ≠ 0x01#8) ∨ (∃ r, m = .readReg r) ∨ ∃ a, m = .readOut a) (ht : t = s)
  /-- A write of `CTR0`. -/
  | ctr0 (v : Word) (hm : m = .writeCtr0 v) (hw : hostMayWrite s = true) (ht : t = { s with ctr0 := some v })
  /-- A write of a length register. -/
  | len (sp : Space) (n : Nat) (hm : m = .writeLen sp n) (hw : hostMayWrite s = true) (ht : t = setLen sp n s)
  /-- A fill of a byte. -/
  | byte (sp : Space) (a : Nat) (b : Byte) (hm : m = .writeByte sp a b) (hw : hostMayWrite s = true)
      (hp : sp = .key ∨ sp = .nonce ∨ s.placement ≠ .shifted) (ht : t = setByte sp a b s)
  /-- The reset. -/
  | reset (hm : m = .reset) (ht : t = resetCore s)

/-- A host move that answers a next state has one of those shapes. -/
theorem hostTurn_shape {m : HostMove} {s t : State} (h : hostTurn m s = .next t) : HostShape m s t := by
  cases m with
  | pass => exact .core rfl h
  | writeCtr0 v =>
    simp only [hostTurn] at h
    split at h
    · cases h; exact .ctr0 v rfl (by assumption) rfl
    · cases h
  | writeLen sp n =>
    simp only [hostTurn] at h
    split at h
    · cases h; exact .len sp n rfl (by assumption) rfl
    · cases h
  | writeByte sp a b =>
    simp only [hostTurn] at h
    split at h
    · obtain ⟨hp, ht⟩ := hostFill_eq_next_iff.mp h
      exact .byte sp a b rfl (by assumption) hp ht
    · cases h
  | writeCmd c =>
    simp only [hostTurn, commandWrite_eq] at h
    split at h
    · rename_i hc; exact .command (hc ▸ rfl) h
    · rename_i hc; cases h; exact .kept (.inl ⟨c, rfl, hc⟩) rfl
  | readReg r =>
    simp only [hostTurn, andThen_eq_next_iff] at h
    obtain ⟨_, _, h⟩ := h
    cases h
    exact .kept (.inr (.inl ⟨r, rfl⟩)) rfl
  | readOut a =>
    simp only [hostTurn, andThen_eq_next_iff] at h
    obtain ⟨_, _, h⟩ := h
    cases h
    exact .kept (.inr (.inr ⟨a, rfl⟩)) rfl
  | reset => cases h; exact .reset rfl rfl

/-! ## The machine's invariant -/

/-- Outside a run the invariant asks for canonical memories, for `FAULT` to tell `HALT`, and for internal locations without a
value. -/
theorem inv_of_notBusy {s : State} (hb : s.status ≠ .busy) (hm : ∀ sp, (heldMem sp s).wf = true)
    (hf : s.fault ≠ 0#3 ↔ s.status = .halt) (hc : InternalCleared s) : Inv s where
  memories := hm
  fault := hf
  cleared := fun _ => hc
  held := fun h => absurd h hb
  bounded := fun h => absurd h hb
  placed := fun h => absurd h hb

/-- The canonical form of the memories is kept where the four memories are. -/
theorem memories_congr {s t : State} (hs : ∀ sp, (heldMem sp s).wf = true) (hk : t.key = s.key) (hn : t.nonce = s.nonce)
    (hi : t.inp = s.inp) (ho : t.out = s.out) (sp : Space) : (heldMem sp t).wf = true := by
  have := hs sp
  cases sp <;> simpa only [heldMem, hk, hn, hi, ho] using this

/-- In a run the invariant is kept where the memories stay canonical, `CTR` and `POS` hold values and `POS` does not pass `IN_LEN`,
by any state whose `STATUS`, `FAULT`, operands and mapping are the same. -/
theorem inv_of_running {s t : State} (hI : Inv s) (hb : s.status = .busy) (hm : ∀ sp, (heldMem sp t).wf = true)
    (hst : t.status = s.status) (hf : t.fault = s.fault) (h0 : t.ctr0 = s.ctr0) (hl : ∀ sp, spaceLen sp t = spaceLen sp s)
    (hpl : t.placement = s.placement) (hc : t.ctr.isSome = true) (hp : ∃ p n, t.pos = some p ∧ s.inLen = some n ∧ p ≤ n) :
    Inv t where
  memories := hm
  fault := by rw [hf, hst]; exact hI.fault
  cleared := fun h => absurd (hst.trans hb) h
  held := fun _ => by
    obtain ⟨hc0, _, hlens⟩ := hI.held hb
    exact ⟨h0 ▸ hc0, hc, fun sp => hl sp ▸ hlens sp⟩
  bounded := fun _ => by
    obtain ⟨p, n, hpos, hn, hle⟩ := hp
    exact ⟨p, n, hpos, (hl .inp).trans hn, hle⟩
  placed := fun _ => hpl ▸ hI.placed hb

/-- `STREAM` in any state, and any instruction in a run, keeps the invariant. -/
theorem exec_keeps_inv {i : Instr} {s t : State} (hI : Inv s) (hi : i = .stream ∨ s.status = .busy)
    (h : exec i s = .next t) : Inv t := by
  have busy : i ≠ .stream → s.status = .busy := fun hn => hi.resolve_left hn
  cases exec_shape h with
  | same _ _ ht => exact ht ▸ hI
  | start _ c hc _ hl hp ht =>
    subst ht
    obtain ⟨n, hn⟩ := Option.isSome_iff_exists.mp (hl .inp)
    exact {
      memories := memories_congr hI.memories rfl rfl rfl rfl
      fault := by simp
      cleared := fun h => absurd rfl h
      held := fun _ => ⟨by simp [hc], rfl, fun sp => by have := hl sp; cases sp <;> exact this⟩
      bounded := fun _ => ⟨0, n, rfl, hn, Nat.zero_le n⟩
      placed := fun _ => hp }
  | halt _ k n j o _ _ _ _ hc ht =>
    subst ht
    exact inv_of_notBusy (by simp) (memories_congr hI.memories rfl rfl rfl rfl) (by simpa using hc) (by simp [InternalCleared])
  | finish hi' ht =>
    subst ht
    have hb := busy (by simp [hi'])
    have hf : s.fault = 0#3 := by simpa [hb] using hI.fault
    exact inv_of_notBusy (by simp) (memories_congr hI.memories rfl rfl rfl rfl) (by simp [hf]) (by simp [InternalCleared])
  | regs x sv ks q hn _ _ ht =>
    subst ht
    obtain ⟨_, hstream, _⟩ := hn
    have hb := busy hstream
    obtain ⟨_, hctr, _⟩ := hI.held hb
    exact inv_of_running hI hb (memories_congr hI.memories rfl rfl rfl rfl) rfl rfl rfl (fun sp => by cases sp <;> rfl) rfl
      hctr (hI.bounded hb)
  | ctr hi' c _ ht =>
    subst ht
    have hb := busy (by simp [hi'])
    exact inv_of_running hI hb (memories_congr hI.memories rfl rfl rfl rfl) rfl rfl rfl (fun sp => by cases sp <;> rfl) rfl
      rfl (hI.bounded hb)
  | chunk hi' p n inp out hp hn _ hd ht =>
    subst ht
    have hb := busy (by simp [hi'])
    obtain ⟨_, hctr, _⟩ := hI.held hb
    obtain ⟨p', n', hp', hn', hle⟩ := hI.bounded hb
    obtain rfl : p = p' := by simpa [hp] using hp'
    obtain rfl : n = n' := by simpa [hn] using hn'
    exact inv_of_running hI hb (memories_congr (hd.canonical hI.memories) rfl rfl rfl rfl) rfl rfl rfl
      (fun sp => by cases sp <;> rfl) rfl hctr ⟨_, n, rfl, hn, by omega⟩

theorem coreTurn_keeps_inv {s t : State} (hI : Inv s) (h : coreTurn s = .next t) : Inv t := by
  obtain ⟨_, rfl⟩ | ⟨hb, _, i, _, _, hx⟩ := coreTurn_cases h
  · exact hI
  · exact exec_keeps_inv hI (.inr hb) hx

theorem resetCore_inv {s : State} (hm : ∀ sp, (heldMem sp s).wf = true) : Inv (resetCore s) :=
  inv_of_notBusy (by simp [State.reset]) (memories_congr hm rfl rfl rfl rfl) (by simp [State.reset])
    (by simp [InternalCleared, State.reset])

theorem hostTurn_keeps_inv {m : HostMove} {s t : State} (hI : Inv s) (h : hostTurn m s = .next t) : Inv t := by
  cases hostTurn_shape h with
  | core _ h => exact coreTurn_keeps_inv hI h
  | command _ h => exact exec_keeps_inv hI (.inl rfl) h
  | kept _ ht => exact ht ▸ hI
  | ctr0 v _ hw ht =>
    subst ht
    have hb := notBusy_of_hostMayWrite hw
    exact inv_of_notBusy hb (memories_congr hI.memories rfl rfl rfl rfl) hI.fault (hI.cleared hb)
  | len sp n _ hw ht =>
    subst ht
    have hb := notBusy_of_hostMayWrite hw
    exact inv_of_notBusy (by simpa using hb) (memories_congr hI.memories (by simp) (by simp) (by simp) (by simp))
      (by simpa using hI.fault) (by simpa [InternalCleared] using hI.cleared hb)
  | byte sp a b _ hw _ ht =>
    subst ht
    have hb := notBusy_of_hostMayWrite hw
    exact inv_of_notBusy (by simpa using hb) (setByte_wf sp a b hI.memories) (by simpa using hI.fault)
      (by simpa [InternalCleared] using hI.cleared hb)
  | reset _ ht => exact ht ▸ resetCore_inv hI.memories

/-! ## The obligations -/

/-- Settles O49: the CORE's turn by the shapes of an instruction, the host's by the shapes of its moves. -/
theorem stepKeepsInv : Obligations.StepKeepsInv := by
  intro s t hI h
  cases hh : s.host with
  | nil => exact coreTurn_keeps_inv hI (step_of_host_nil hh ▸ h)
  | cons m rest => exact hostTurn_keeps_inv (inv_host hI rest) (step_of_host_cons hh ▸ h)

/-- Settles O50: no run is on, so that no point of the schedule is asked for. -/
theorem resetMeetsInv : Obligations.ResetMeetsInv :=
  have hI : Inv State.reset := resetCore_inv (s := State.reset) reset_wf
  ⟨hI, hI, rfl, fun h => absurd h (by decide)⟩

end Sys2Proof.Machine
end

section
/-! The schedule of the ROM (R33, R159, R168): from each of its points the CORE goes on to the next one, whatever host moves are
still to come; and the host's moves keep the schedule's invariant. -/

namespace Sys2Proof.Machine

/-! ## Locations that hold a value -/

/-- After a write the location written holds a value, and every other one does if it did before. -/
theorem isSome_getElem_set {n : Nat} {α : Type} (v : Vector (Option α) n) (i : Nat) (hi : i < n) (a : α) (j : Fin n) :
    (v.set i (some a))[j].isSome = true ↔ j.val = i ∨ v[j].isSome = true := by
  by_cases h : j.val = i
  · simp [h]
  · simp [h, Vector.getElem_set_ne _ _ (Ne.symm h)]

/-- Words loaded into `X` are held, and so is every other word that was. -/
theorem isSome_getElem_loadX (f : Nat → Word) (i : Fin 16) :
    ∀ (l : List (Nat × Fin 16)) (x : Vector (Option Word) 16),
      (loadX f l x)[i].isSome = true ↔ i ∈ l.map Prod.snd ∨ x[i].isSome = true
  | [], x => by simp [loadX]
  | p :: l, x => by
    rw [show loadX f (p :: l) x = loadX f l (x.set p.2.val (some (f p.1))) from rfl, isSome_getElem_loadX f i l,
      isSome_getElem_set, List.map_cons, List.mem_cons, ← Fin.ext_iff]
    tauto

/-! ## From a point of the body to the next -/

/-- What the registers `x'`, `sv'` and `ks'` must hold for the step at index `q` of the body to keep the schedule: every word held
before, and what the rest of the body reads of what that step writes. -/
structure BodyKeeps (q : Nat) (s : State) (x' sv' : Vector (Option Word) 16) (ks' : Vector (Option Byte) 64) : Prop where
  x : ∀ i : Fin 16, s.x[i].isSome = true → x'[i].isSome = true
  sv : ∀ i : Fin 16, s.sv[i].isSome = true → sv'[i].isSome = true
  consts : q = 2 → ∀ i : Fin 16, i.val < 4 → x'[i].isSome = true := by intros; omega
  key : q = 3 → ∀ i : Fin 16, 4 ≤ i.val → i.val < 12 → x'[i].isSome = true := by intros; omega
  count : q = 4 → ∀ i : Fin 16, i.val = 12 → x'[i].isSome = true := by intros; omega
  nonce : q = 5 → ∀ i : Fin 16, 13 ≤ i.val → x'[i].isSome = true := by intros; omega
  saved : q = 6 → ∀ i : Fin 16, sv'[i].isSome = true := by intros; omega
  stream : q = 88 → ∀ k : Fin 64, ks'[k].isSome = true := by intros; omega

section
variable {q p n : Nat} {c0 c : Word} {s : State}

/-- The next index, as a number. -/
theorem toNat_seq_succ_of_runPoint (h : RunPoint q p n c0 c s) (hq : q < 92) : (s.seq + 1#7).toNat = q + 1 := by
  obtain ⟨hseq, _⟩ := h.seq
  rw [toNat_seq_succ (by omega), hseq]

/-- Through the block transformation, `ROM[2..89]`, a step that writes registers alone goes from one point to the next. -/
theorem runPoint_body (h : RunPoint q p n c0 c s) (h2 : 2 ≤ q) (h88 : q ≤ 88) {x' sv' : Vector (Option Word) 16}
    {ks' : Vector (Option Byte) 64} (hk : BodyKeeps q s x' sv' ks') :
    RunPoint (q + 1) p n c0 c { s with x := x', sv := sv', ks := ks', seq := s.seq + 1#7 } where
  seq := ⟨toNat_seq_succ_of_runPoint h (by omega), by omega⟩
  ctr0 := h.ctr0
  ctr := h.ctr
  pos := h.pos
  inLen := h.inLen
  bounded := h.bounded
  start := fun h => by omega
  checked := fun _ => h.checked (by omega)
  boundary := h.boundary
  body := fun _ _ => h.body h2 (by omega)
  last := fun h => by omega
  counter := by
    have := h.counter
    rwa [if_neg (by omega)] at this ⊢
  consts := fun _ _ i hlo hhi => by
    by_cases e : q = 2
    · exact hk.consts e i hhi
    · exact hk.x i (h.consts (by omega) (by omega) i hlo hhi)
  key := fun _ _ i hlo hhi => by
    by_cases e : q = 3
    · exact hk.key e i hlo hhi
    · exact hk.x i (h.key (by omega) (by omega) i hlo hhi)
  count := fun _ _ i hlo hhi => by
    by_cases e : q = 4
    · exact hk.count e i (by omega)
    · exact hk.x i (h.count (by omega) (by omega) i hlo hhi)
  nonce := fun _ _ i hlo hhi => by
    by_cases e : q = 5
    · exact hk.nonce e i hlo
    · exact hk.x i (h.nonce (by omega) (by omega) i hlo hhi)
  saved := fun _ _ i => by
    by_cases e : q = 6
    · exact hk.saved e i
    · exact hk.sv i (h.saved (by omega) (by omega) i)
  stream := fun _ _ k => hk.stream (by omega) k

/-- From index 6 on, through the chunk, all sixteen words of `X` hold values. -/
theorem exists_words_of_runPoint (h : RunPoint q p n c0 c s) (h6 : 6 ≤ q) (h91 : q ≤ 91) : ∃ v : Vector Word 16, s.x = v.map some :=
  exists_values (heldX_all (h.consts (by omega) h91) (h.key (by omega) h91) (h.count (by omega) h91) (h.nonce h6 h91))

/-- At index `q` of the body the instruction `i` goes on and writes registers alone, which keep the schedule. -/
def BodyStep (q : Nat) (i : Instr) (s : State) : Prop :=
  ∃ x' sv' ks', exec i s = .next { s with x := x', sv := sv', ks := ks', seq := s.seq + 1#7 } ∧ BodyKeeps q s x' sv' ks'

/-- `LDCONST` (R90). -/
theorem bodyStep_ldconst (s : State) : BodyStep 2 .ldconst s := by
  refine ⟨_, s.sv, s.ks, rfl, { x := fun i hi => ?_, sv := fun _ => id, consts := fun _ i hi => ?_ }⟩
  · simp only [writeX_x, isSome_getElem_set, hi, or_true]
  · simp only [writeX_x, isSome_getElem_set, Fin.coe_ofNat_eq_mod]
    omega

/-- A load from a space long enough for its layout (R91, R93). -/
theorem loadWords_of_len {sp : Space} {l : List (Nat × Fin 16)} (hn : spaceLen sp s = some n)
    (hl : ∀ p ∈ l, p.1 + 3 < n) :
    loadWords sp l s = .next { s with x := loadX (fun a => wordAt sp a s) l s.x } := by
  obtain ⟨t, ht⟩ := loadWords_of_lt (sp := sp) (l := l) (s := s) fun m hm => by
    obtain rfl : n = m := by simpa [hn] using hm
    exact hl
  rw [ht, eq_of_loadWords ht]

/-- `LDKEY` (R91). -/
theorem bodyStep_ldkey (hk : s.keyLen = some 32) : BodyStep 3 .ldkey s := by
  have hx : exec .ldkey s = .next (advance { s with x := loadX (fun a => wordAt .key a s) keyLayout s.x }) := by
    rw [exec, execLdkey, loadWords_of_len (sp := .key) hk (by decide), andThen_next]
  refine ⟨_, s.sv, s.ks, hx, { x := fun i hi => ?_, sv := fun _ => id, key := fun _ i hlo hhi => ?_ }⟩
  · exact (isSome_getElem_loadX _ i _ _).mpr (.inr hi)
  · have : ∀ i : Fin 16, 4 ≤ i.val → i.val < 12 → i ∈ keyLayout.map Prod.snd := by decide
    exact (isSome_getElem_loadX _ i _ _).mpr (.inl (this i hlo hhi))

/-- `LDCTR` (R92). -/
theorem bodyStep_ldctr (hc : s.ctr = some c) : BodyStep 4 .ldctr s := by
  have hx : exec .ldctr s = .next (advance (writeX 12 c s)) := by simp [exec, execLdctr, hc]
  refine ⟨_, s.sv, s.ks, hx, { x := fun i hi => ?_, sv := fun _ => id, count := fun _ i hi => ?_ }⟩
  · exact (isSome_getElem_set _ _ (by decide) _ i).mpr (.inr hi)
  · exact (isSome_getElem_set _ _ (by decide) _ i).mpr (.inl hi)

/-- `LDNONCE` (R93). -/
theorem bodyStep_ldnonce (hn : s.nonceLen = some 12) : BodyStep 5 .ldnonce s := by
  have hx : exec .ldnonce s = .next (advance { s with x := loadX (fun a => wordAt .nonce a s) nonceLayout s.x }) := by
    rw [exec, execLdnonce, loadWords_of_len (sp := .nonce) hn (by decide), andThen_next]
  refine ⟨_, s.sv, s.ks, hx, { x := fun i hi => ?_, sv := fun _ => id, nonce := fun _ i hlo => ?_ }⟩
  · exact (isSome_getElem_loadX _ i _ _).mpr (.inr hi)
  · have : ∀ i : Fin 16, 13 ≤ i.val → i ∈ nonceLayout.map Prod.snd := by decide
    exact (isSome_getElem_loadX _ i _ _).mpr (.inl (this i hlo))

/-- `SAVE` (R120). -/
theorem bodyStep_save {v : Vector Word 16} (hx : s.x = v.map some) : BodyStep 6 .save s :=
  ⟨s.x, _, s.ks, execSave_of_words hx, { x := fun _ => id, sv := fun _ _ => by simp, saved := fun _ _ => by simp }⟩

/-- `QR` (R103), at any of the eighty indices of the rounds. -/
theorem bodyStep_qr {a b d e : Fin 16} {v : Vector Word 16} (h7 : 7 ≤ q) (h86 : q ≤ 86) (hd : pairwiseDifferent a b d e = true)
    (hx : s.x = v.map some) : BodyStep q (.qr a b d e) s :=
  ⟨_, s.sv, s.ks, execQr_of_words hd hx, { x := fun _ _ => by simp, sv := fun _ => id }⟩

/-- `FEEDFWD` (R124). -/
theorem bodyStep_feedfwd {v w : Vector Word 16} (hx : s.x = v.map some) (hs : s.sv = w.map some) : BodyStep 87 .feedfwd s :=
  ⟨_, s.sv, s.ks, execFeedfwd_of_words hx hs, { x := fun _ _ => by simp, sv := fun _ => id }⟩

/-- `SER` (R140). -/
theorem bodyStep_ser {v : Vector Word 16} (hx : s.x = v.map some) : BodyStep 88 .ser s :=
  ⟨s.x, s.sv, _, execSer_of_words hx, { x := fun _ => id, sv := fun _ => id, stream := fun _ _ => by simp }⟩

/-- At each index of the block transformation the ROM's micro-operation goes on and keeps the schedule. -/
theorem exists_bodyStep (h : RunPoint q p n c0 c s) (h2 : 2 ≤ q) (h88 : q ≤ 88) :
    ∃ i, romOps[q]? = some i ∧ BodyStep q i s := by
  obtain ⟨hkey, hnonce, _⟩ := h.checked (by omega)
  have words : 6 ≤ q → ∃ v : Vector Word 16, s.x = v.map some := fun h6 => exists_words_of_runPoint h h6 (by omega)
  obtain rfl | rfl | rfl | rfl | rfl | hq | rfl | rfl :
      q = 2 ∨ q = 3 ∨ q = 4 ∨ q = 5 ∨ q = 6 ∨ (7 ≤ q ∧ q ≤ 86) ∨ q = 87 ∨ q = 88 := by omega
  · exact ⟨_, rfl, bodyStep_ldconst s⟩
  · exact ⟨_, rfl, bodyStep_ldkey hkey⟩
  · exact ⟨_, rfl, bodyStep_ldctr h.ctr⟩
  · exact ⟨_, rfl, bodyStep_ldnonce hnonce⟩
  · obtain ⟨v, hv⟩ := words (by omega)
    exact ⟨_, rfl, bodyStep_save hv⟩
  · obtain ⟨a, b, d, e, hi, hd⟩ := romOps_qr ⟨q, by omega⟩ hq.1 hq.2
    obtain ⟨v, hv⟩ := words (by omega)
    exact ⟨_, hi, bodyStep_qr hq.1 hq.2 hd hv⟩
  · obtain ⟨v, hv⟩ := words (by omega)
    obtain ⟨w, hw⟩ := exists_values (h.saved (by omega) (by omega))
    exact ⟨_, rfl, bodyStep_feedfwd hv hw⟩
  · obtain ⟨v, hv⟩ := words (by omega)
    exact ⟨_, rfl, bodyStep_ser hv⟩

/-! ## From a point of the driver to the next -/

/-- Once the lengths have passed the check, a step that sets `SEQ` alone may go to the loop's head, to its body while input is left, or
to the `END` when none is. -/
theorem runPoint_goto (h : RunPoint q p n c0 c s) (h90 : q ≠ 90) {r : Nat} {b : BitVec 7} (hb : b.toNat = r)
    (hr : r = 1 ∨ (r = 2 ∧ p ≠ n) ∨ (r = 92 ∧ p = n))
    (hl : s.keyLen = some 32 ∧ s.nonceLen = some 12 ∧ s.outLen = some n) : RunPoint r p n c0 c { s with seq := b } where
  seq := ⟨hb, by omega⟩
  ctr0 := h.ctr0
  ctr := h.ctr
  pos := h.pos
  inLen := h.inLen
  bounded := h.bounded
  start := by omega
  checked := fun _ => hl
  boundary := h.boundary
  body := fun h2 h89 => by
    have := h.bounded
    have := h.boundary
    omega
  last := by omega
  counter := by
    have := h.counter
    rwa [if_neg (by omega)] at this ⊢
  consts := by omega
  key := by omega
  count := by omega
  nonce := by omega
  saved := by omega
  stream := by omega

/-- Past the chunk's bytes, the counter's increment is still to come. -/
theorem runPoint_xorchunk (h : RunPoint 89 p n c0 c s) (inp out : Memory) :
    RunPoint 90 (p + min 64 (n - p)) n c0 c
      { s with inp := inp, out := out, pos := some (p + min 64 (n - p)), seq := s.seq + 1#7 } where
  seq := ⟨toNat_seq_succ_of_runPoint h (by omega), by omega⟩
  ctr0 := h.ctr0
  ctr := h.ctr
  pos := rfl
  inLen := h.inLen
  bounded := by have := h.bounded; omega
  start := by omega
  checked := fun _ => h.checked (by omega)
  boundary := by
    have := h.body (by omega) (by omega)
    omega
  body := by omega
  last := by omega
  counter := by
    obtain ⟨hlt, hd⟩ := h.body (by omega) (by omega)
    have hc := h.counter
    rw [if_neg (by omega)] at hc
    rw [if_pos rfl, chunks_succ hd hlt, hc, add32, add32, add32, BitVec.ofNat_add, BitVec.add_assoc]
  consts := fun _ _ => h.consts (by omega) (by omega)
  key := fun _ _ => h.key (by omega) (by omega)
  count := fun _ _ => h.count (by omega) (by omega)
  nonce := fun _ _ => h.nonce (by omega) (by omega)
  saved := fun _ _ => h.saved (by omega) (by omega)
  stream := fun _ _ => h.stream (by omega) (by omega)

/-- After the increment the counter is that of the next chunk (R159). -/
theorem runPoint_ctrinc (h : RunPoint 90 p n c0 c s) :
    RunPoint 91 p n c0 (add32 c 1#32) { s with ctr := some (add32 c 1#32), seq := s.seq + 1#7 } where
  seq := ⟨toNat_seq_succ_of_runPoint h (by omega), by omega⟩
  ctr0 := h.ctr0
  ctr := rfl
  pos := h.pos
  inLen := h.inLen
  bounded := h.bounded
  start := by omega
  checked := fun _ => h.checked (by omega)
  boundary := h.boundary
  body := by omega
  last := by omega
  counter := h.counter
  consts := fun _ _ => h.consts (by omega) (by omega)
  key := fun _ _ => h.key (by omega) (by omega)
  count := fun _ _ => h.count (by omega) (by omega)
  nonce := fun _ _ => h.nonce (by omega) (by omega)
  saved := fun _ _ => h.saved (by omega) (by omega)
  stream := fun _ _ => h.stream (by omega) (by omega)

/-- A run starts at a point of the schedule (R150). -/
theorem runPoint_startRun (h0 : s.ctr0 = some c) (hn : s.inLen = some n) : RunPoint 0 0 n c c (startRun c s) where
  seq := ⟨rfl, by omega⟩
  ctr0 := h0
  ctr := rfl
  pos := rfl
  inLen := hn
  bounded := Nat.zero_le n
  start := fun _ => rfl
  checked := fun h => absurd rfl h
  boundary := .inl (by omega)
  body := by omega
  last := by omega
  counter := by simp [add32, chunks]
  consts := by omega
  key := by omega
  count := by omega
  nonce := by omega
  saved := by omega
  stream := by omega

/-- The run goes on to a point of the schedule, or it is over. -/
def AtPointOrOver (t : State) : Prop := t.status = .busy → ∃ q p n c0 c, RunPoint q p n c0 c t

theorem atPoint_of_runPoint (h : RunPoint q p n c0 c s) : AtPointOrOver s := fun _ => ⟨q, p, n, c0, c, h⟩

/-- `CHECK` on four lengths advances where it finds no cause, and takes the Precondition Violation with the causes it finds (R152). -/
theorem exec_check_of_lens {k m o : Nat} (hk : s.keyLen = some k) (hm : s.nonceLen = some m) (hn : s.inLen = some n)
    (ho : s.outLen = some o) : exec .check s =
      .next (if violationCauses k m n o = 0#3 then advance s else raiseViolation (violationCauses k m n o) s) := by
  simp only [exec, execCheck, hk, hm, hn, ho, valueOf_some, andThen_next]
  by_cases hv : violationCauses k m n o = 0#3 <;> simp [hv]

/-- `CHECK` at index 0 (R152): a run whose lengths fail is over, and in one whose lengths pass they are checked from there on. -/
theorem exec_check_point (h : RunPoint 0 p n c0 c s) (hl : ∀ sp, (spaceLen sp s).isSome = true) :
    ∃ t, exec .check s = .next t ∧ AtPointOrOver t := by
  obtain ⟨k, hk⟩ := Option.isSome_iff_exists.mp (hl .key)
  obtain ⟨m, hm⟩ := Option.isSome_iff_exists.mp (hl .nonce)
  obtain ⟨o, ho⟩ := Option.isSome_iff_exists.mp (hl .out)
  have hx := exec_check_of_lens hk hm h.inLen ho
  by_cases hv : violationCauses k m n o = 0#3
  · obtain ⟨rfl, rfl, rfl⟩ := violationCauses_eq_zero_iff.mp hv
    have hs := toNat_seq_succ_of_runPoint h (by omega)
    rw [if_pos hv] at hx
    exact ⟨_, hx, atPoint_of_runPoint (runPoint_goto h (by omega) hs (.inl rfl) ⟨hk, hm, ho⟩)⟩
  · rw [if_neg hv] at hx
    exact ⟨_, hx, fun hb => by simp at hb⟩

/-- `BDONE 92` at index 1 (R153): to the `END` when no input is left, and into the body otherwise. -/
theorem exec_bdone_point (h : RunPoint 1 p n c0 c s) : ∃ t, exec (.bdone 92#8) s = .next t ∧ AtPointOrOver t := by
  have hx : exec (.bdone 92#8) s = .next (if p = n then goTo 92#8 s else advance s) := by
    rw [exec, execBdone, if_pos (by decide), h.pos, h.inLen]
    rfl
  have hl := h.checked (by omega)
  refine ⟨_, hx, ?_⟩
  by_cases hp : p = n
  · rw [if_pos hp]
    exact atPoint_of_runPoint (runPoint_goto h (by omega) (r := 92) (b := 92#7) rfl (.inr (.inr ⟨rfl, hp⟩)) hl)
  · have hs := toNat_seq_succ_of_runPoint h (by omega)
    rw [if_neg hp]
    exact atPoint_of_runPoint (runPoint_goto h (by omega) hs (.inr (.inl ⟨rfl, hp⟩)) hl)

/-- `XORCHUNK` at index 89 (R154): the chunk lies in both buffers and its keystream is there. -/
theorem exec_xorchunk_point (h : RunPoint 89 p n c0 c s) (hpl : s.placement ≠ .shifted) :
    ∃ t, exec .xorchunk s = .next t ∧ AtPointOrOver t := by
  obtain ⟨_, _, hout⟩ := h.checked (by omega)
  have hin := h.inLen
  obtain ⟨u, hu⟩ := xorBytes_of_held (p := p) (l := chunkOffsets (min 64 (n - p))) (s := s) fun k hk => by
    have := mem_chunkOffsets.mp hk
    refine ⟨fun m hm => ?_, fun m hm => ?_, h.stream (by omega) (by omega) k⟩
    · obtain rfl : n = m := by simpa [hin] using hm
      omega
    · obtain rfl : n = m := by simpa [hout] using hm
      omega
  have hx : exec .xorchunk s = .next (advance { u with pos := some (p + min 64 (n - p)) }) := by
    simp only [exec, execXorchunk, h.pos, hin, valueOf_some, andThen_next, placed_of_ne hpl]
    rw [show chunkLen n p = min 64 (n - p) from rfl, hu, andThen_next]
  rw [(xorBytesDone_of_next p hu).same] at hx
  exact ⟨_, hx, atPoint_of_runPoint (runPoint_xorchunk h u.inp u.out)⟩

/-- `CTRINC` at index 90 (R155). -/
theorem exec_ctrinc_point (h : RunPoint 90 p n c0 c s) : ∃ t, exec .ctrinc s = .next t ∧ AtPointOrOver t := by
  have hx : exec .ctrinc s = .next { s with ctr := some (add32 c 1#32), seq := s.seq + 1#7 } := by
    rw [exec, execCtrinc, h.ctr]
    rfl
  exact ⟨_, hx, atPoint_of_runPoint (runPoint_ctrinc h)⟩

/-- `JMP 1` at index 91 (R156): back to the loop's head. -/
theorem exec_jmp_point (h : RunPoint 91 p n c0 c s) : ∃ t, exec (.jmp 1#8) s = .next t ∧ AtPointOrOver t :=
  ⟨_, rfl, atPoint_of_runPoint (runPoint_goto h (by omega) (b := 1#7) rfl (.inl rfl) (h.checked (by omega)))⟩

/-- At every point of the schedule the ROM's micro-operation goes on, to a next point or to the run's end. -/
theorem exists_exec_point (hI : Inv s) (hb : s.status = .busy) (h : RunPoint q p n c0 c s) :
    ∃ i t, romOps[q]? = some i ∧ exec i s = .next t ∧ AtPointOrOver t := by
  obtain ⟨_, hq92⟩ := h.seq
  obtain ⟨_, _, hlens⟩ := hI.held hb
  obtain rfl | rfl | hq | rfl | rfl | rfl | rfl :
      q = 0 ∨ q = 1 ∨ (2 ≤ q ∧ q ≤ 88) ∨ q = 89 ∨ q = 90 ∨ q = 91 ∨ q = 92 := by omega
  · exact ⟨.check, (exec_check_point h hlens).imp fun _ ht => ⟨rfl, ht⟩⟩
  · exact ⟨.bdone 92#8, (exec_bdone_point h).imp fun _ ht => ⟨rfl, ht⟩⟩
  · obtain ⟨i, hi, x', sv', ks', hx, hk⟩ := exists_bodyStep h hq.1 hq.2
    exact ⟨i, _, hi, hx, atPoint_of_runPoint (runPoint_body h hq.1 hq.2 hk)⟩
  · exact ⟨.xorchunk, (exec_xorchunk_point h (hI.placed hb)).imp fun _ ht => ⟨rfl, ht⟩⟩
  · exact ⟨.ctrinc, (exec_ctrinc_point h).imp fun _ ht => ⟨rfl, ht⟩⟩
  · exact ⟨.jmp 1#8, (exec_jmp_point h).imp fun _ ht => ⟨rfl, ht⟩⟩
  · exact ⟨.endrun, _, rfl, rfl, fun hb => by simp at hb⟩

end

/-! ## The schedule's invariant -/

/-- No instruction writes the program. -/
theorem testProgram_of_exec {i : Instr} {s t : State} (h : exec i s = .next t) : t.testProgram = s.testProgram := by
  cases exec_shape h with
  | same _ _ ht | start _ _ _ _ _ _ ht | halt _ _ _ _ _ _ _ _ _ _ ht | finish _ ht | regs _ _ _ _ _ _ _ ht | ctr _ _ _ ht
  | chunk _ _ _ _ _ _ _ _ _ ht => subst ht; rfl

theorem scheduleInv_host {s : State} (h : ScheduleInv s) (r : List HostMove) : ScheduleInv { s with host := r } where
  inv := inv_host h.inv r
  program := h.program
  point := fun hb => by
    obtain ⟨q, p, n, c0, c, hp⟩ := h.point hb
    exact ⟨q, p, n, c0, c, runPoint_host hp r⟩

/-- In the schedule the CORE's turn always goes on, and to the schedule (R33, R194). -/
theorem coreTurn_scheduleInv {s : State} (h : ScheduleInv s) : ∃ t, coreTurn s = .next t ∧ ScheduleInv t := by
  by_cases hb : s.status = .busy
  · obtain ⟨q, p, n, c0, c, hp⟩ := h.point hb
    obtain ⟨i, t, hi, hx, hpt⟩ := exists_exec_point h.inv hb hp
    have hc : coreTurn s = .next t := by rw [coreTurn_rom h.program hb (hp.seq.1.symm ▸ hi), hx]
    exact ⟨t, hc, coreTurn_keeps_inv h.inv hc, (testProgram_of_exec hx).trans h.program, hpt⟩
  · exact ⟨s, coreTurn_of_notBusy hb, h⟩

/-- Outside a run the schedule's invariant asks for the machine's and for the ROM. -/
theorem scheduleInv_of_notBusy {s : State} (hI : Inv s) (hp : s.testProgram = none) (hb : s.status ≠ .busy) : ScheduleInv s :=
  ⟨hI, hp, fun h => absurd h hb⟩

theorem exec_stream_scheduleInv {s t : State} (hS : ScheduleInv s) (h : exec .stream s = .next t) : ScheduleInv t := by
  have hI := exec_keeps_inv hS.inv (.inl rfl) h
  have hp := (testProgram_of_exec h).trans hS.program
  obtain rfl | ⟨c, hc, hl, _, rfl⟩ := exec_stream_cases h
  · exact hS
  · obtain ⟨n, hn⟩ := Option.isSome_iff_exists.mp (hl .inp)
    exact ⟨hI, hp, atPoint_of_runPoint (runPoint_startRun hc hn)⟩

theorem hostTurn_scheduleInv {m : HostMove} {s t : State} (hS : ScheduleInv s) (h : hostTurn m s = .next t) : ScheduleInv t := by
  have hI := hostTurn_keeps_inv hS.inv h
  have hp := hS.program
  cases hostTurn_shape h with
  | core _ h =>
    obtain ⟨u, hu, hSu⟩ := coreTurn_scheduleInv hS
    obtain rfl : u = t := by simpa [hu] using h
    exact hSu
  | command _ h => exact exec_stream_scheduleInv hS h
  | kept _ ht => exact ht ▸ hS
  | ctr0 v _ hw ht =>
    subst ht
    exact scheduleInv_of_notBusy hI hp (notBusy_of_hostMayWrite hw)
  | len sp n _ hw ht =>
    subst ht
    exact scheduleInv_of_notBusy hI (by simpa using hp) (by simpa using notBusy_of_hostMayWrite hw)
  | byte sp a b _ hw _ ht =>
    subst ht
    exact scheduleInv_of_notBusy hI (by simpa using hp) (by simpa using notBusy_of_hostMayWrite hw)
  | reset _ ht =>
    subst ht
    exact scheduleInv_of_notBusy hI hp (by simp [State.reset])

/-! ## Which steps can fault -/

section
variable {α β : Type}

/-- A sequence faults exactly when its first part does, or that goes on and the second part does. -/
theorem andThen_eq_fault_iff {o : Read α} {f : α → Read β} {r : Fault} :
    andThen o f = .fault r ↔ o = .fault r ∨ ∃ a, o = .next a ∧ f a = .fault r := by
  cases o <;> simp

theorem valueOf_ne_fault {l : Loc} {v : Option α} {r : Fault} : valueOf l v ≠ .fault r := by cases v <;> simp

end

theorem placed_ne_fault {s : State} {r : Fault} : placed s ≠ .fault r := by
  by_cases h : s.placement = .shifted <;> simp [placed, h]

/-- `STREAM` accesses no operand space, so it does not fault. -/
theorem exec_stream_ne_fault {s : State} {r : Fault} : exec .stream s ≠ .fault r := by
  by_cases h : s.status = .busy ∨ s.status = .halt <;>
    simp [exec, execStream, h, andThen_eq_fault_iff, valueOf_ne_fault, placed_ne_fault]

/-- Of the host's moves only a read of `OUT` faults of itself. -/
theorem hostTurn_fault {m : HostMove} {s : State} {r : Fault} (h : hostTurn m s = .fault r) :
    (m = .pass ∧ coreTurn s = .fault r) ∨ ∃ a, m = .readOut a := by
  cases m with
  | pass => exact .inl ⟨rfl, h⟩
  | readOut a => exact .inr ⟨a, rfl⟩
  | writeCtr0 v => simp only [hostTurn] at h; split at h <;> cases h
  | writeLen sp n => simp only [hostTurn] at h; split at h <;> cases h
  | writeByte sp a b =>
    simp only [hostTurn] at h
    split at h
    · cases sp <;> simp [hostFill, andThen_eq_fault_iff, placed_ne_fault] at h
    · cases h
  | writeCmd c =>
    simp only [hostTurn, commandWrite_eq] at h
    split at h
    · exact absurd h exec_stream_ne_fault
    · cases h
  | readReg q => cases q <;> cases h
  | reset => cases h

/-! ## The obligations -/

/-- Settles O51: the CORE's turn at each index of the ROM. -/
theorem scheduleNeverStops : Obligations.ScheduleNeverStops := by
  intro s hS hh
  rw [step_of_host_nil hh]
  exact coreTurn_scheduleInv hS

/-- Settles O52: the CORE's turn goes on by the schedule, and the host's moves by their shapes. -/
theorem stepKeepsScheduleInv : Obligations.StepKeepsScheduleInv := by
  constructor
  · intro s t hS h
    cases hh : s.host with
    | nil =>
      obtain ⟨u, hu, hSu⟩ := scheduleNeverStops s hS hh
      obtain rfl : u = t := by simpa [hu] using h
      exact hSu
    | cons m rest => exact hostTurn_scheduleInv (scheduleInv_host hS rest) (step_of_host_cons hh ▸ h)
  · intro s r hS h
    cases hh : s.host with
    | nil =>
      obtain ⟨u, hu, _⟩ := scheduleNeverStops s hS hh
      rw [hu] at h
      cases h
    | cons m rest =>
      rw [step_of_host_cons hh] at h
      obtain ⟨_, hc⟩ | ⟨a, rfl⟩ := hostTurn_fault h
      · obtain ⟨u, hu, _⟩ := coreTurn_scheduleInv (scheduleInv_host hS rest)
        rw [hu] at hc
        cases hc
      · exact ⟨a, rest, rfl⟩

end Sys2Proof.Machine
end

section
/-! Where `SEQ` goes (R24), which words of `X` an instruction writes (R23), which reads of a location without a value are refused
(R33, R34), and what the host reads (R26, R54). -/

namespace Sys2Proof.Machine

/-! ## The sequencer -/

theorem exec_bdone_eq_next_iff {d : BitVec 8} {s t : State} : exec (.bdone d) s = .next t ↔
    d.toNat ≤ 92 ∧ ∃ p n, s.pos = some p ∧ s.inLen = some n ∧ t = if p = n then goTo d s else advance s := by
  by_cases hd : d.toNat ≤ 92 <;>
    simp [exec, execBdone, targetInRom_iff, hd, andThen_eq_next_iff, valueOf_eq_next_iff, eq_comm (a := t)]

theorem exec_jmp_eq_next_iff {d : BitVec 8} {s t : State} : exec (.jmp d) s = .next t ↔ d.toNat ≤ 92 ∧ t = goTo d s := by
  by_cases hd : d.toNat ≤ 92 <;> simp [exec, execJmp, targetInRom_iff, hd, eq_comm (a := t)]

theorem exec_check_eq_next_iff {s t : State} : exec .check s = .next t ↔
    ∃ k n j o, s.keyLen = some k ∧ s.nonceLen = some n ∧ s.inLen = some j ∧ s.outLen = some o ∧
      t = if violationCauses k n j o = 0#3 then advance s else raiseViolation (violationCauses k n j o) s := by
  constructor
  · intro h
    have hx := h
    simp only [exec, execCheck, andThen_eq_next_iff, valueOf_eq_next_iff] at h
    obtain ⟨k, hk, n, hn, j, hj, o, ho, _⟩ := h
    refine ⟨k, n, j, o, hk, hn, hj, ho, ?_⟩
    simpa [exec_check_of_lens hk hn hj ho, eq_comm (a := t)] using hx
  · rintro ⟨k, n, j, o, hk, hn, hj, ho, rfl⟩
    exact exec_check_of_lens hk hn hj ho

/-- An instruction that neither goes to a target nor begins or ends a run goes to the next index. -/
theorem seq_of_exec {i : Instr} {s t : State} (h : exec i s = .next t) (h1 : i ≠ .stream) (h2 : i ≠ .check) (h3 : ∀ d, i ≠ .bdone d)
    (h4 : ∀ d, i ≠ .jmp d) (h5 : i ≠ .endrun) : t.seq = s.seq + 1#7 := by
  cases exec_shape h with
  | same h | start h => exact absurd h h1
  | halt h => exact absurd h h2
  | finish h => exact absurd h h5
  | regs _ _ _ _ _ _ hq ht => subst ht; exact hq h3 h4
  | ctr _ _ _ ht | chunk _ _ _ _ _ _ _ _ _ ht => subst ht; rfl

/-- Settles O8: a clause of its own for each instruction that does not simply advance. -/
theorem sequencerAdvances : Obligations.SequencerAdvances := by
  refine ⟨fun i s t h => ?_, fun s hh hb hq => ?_, fun s hh hb hp hq => ?_⟩
  · cases i with
    | stream =>
      obtain ht | ⟨_, _, _, _, rfl⟩ := exec_stream_cases h
      · exact .inl ht
      · exact .inr rfl
    | check =>
      obtain ⟨k, n, j, o, hk, hn, hj, ho, rfl⟩ := exec_check_eq_next_iff.mp h
      refine ⟨k, n, j, o, hk, hn, hj, ho, fun hp => ?_, fun hp => ?_⟩
      · rw [if_pos (violationCauses_eq_zero_iff.mpr hp), advance_seq]
      · rw [if_neg (violationCauses_eq_zero_iff.not.mpr hp)]
        exact ⟨raiseViolation_seq _ s, raiseViolation_status _ s⟩
    | bdone d =>
      obtain ⟨hd, p, n, hp, hn, rfl⟩ := exec_bdone_eq_next_iff.mp h
      refine ⟨fun e => ?_, fun e => ?_⟩
      · have : p = n := by simpa [hp, hn] using e
        rw [if_pos this, goTo_seq, toNat_setWidth_target hd]
      · have : p ≠ n := by simpa [hp, hn] using e
        rw [if_neg this, advance_seq]
    | jmp d =>
      obtain ⟨hd, rfl⟩ := exec_jmp_eq_next_iff.mp h
      exact toNat_setWidth_target hd
    | endrun => cases h; exact ⟨rfl, rfl⟩
    | _ => exact seq_of_exec h (by simp) (by simp) (by simp) (by simp) (by simp)
  · rw [step_of_host_nil hh, coreTurn, if_pos hb, fetch_outside hq, andThen_refused]
  · exact step_rom_at 92 ⟨hh, hp⟩ hb (by rw [hq]; rfl) rfl

/-! ## The words of `X` -/

/-- Settles O38: the instructions by their shapes, and the host's moves by theirs. -/
theorem wordsWrittenOnlyWhereNamed : Obligations.WordsWrittenOnlyWhereNamed := by
  refine ⟨fun i s t k h hk => ?_, fun m s t hpass hreset hcmd h => ?_⟩
  · cases exec_shape h with
    | same _ _ ht | start _ _ _ _ _ _ ht | ctr _ _ _ ht | chunk _ _ _ _ _ _ _ _ _ ht => subst ht; exact .inl rfl
    | halt hi _ _ _ _ _ _ _ _ _ ht => subst ht; exact .inr ⟨.inr hi, internalCleared_clearInternal s⟩
    | finish hi ht => subst ht; exact .inr ⟨.inl hi, internalCleared_clearInternal s⟩
    | regs _ _ _ _ _ hx _ ht => subst ht; exact .inl (hx k hk)
  · cases hostTurn_shape h with
    | core hm => exact absurd hm hpass
    | command hm => exact absurd hm (hcmd _)
    | kept _ ht | ctr0 _ _ _ ht => subst ht; rfl
    | len _ _ _ _ ht => rw [ht, setLen_x]
    | byte _ _ _ _ _ _ ht => rw [ht, setByte_x]
    | reset hm => exact absurd hm hreset

/-! ## Reads of a location without a value -/

/-- Read the four length registers in the order in which `STREAM` and `CHECK` read them, and go on with their values. -/
def withLens {α : Type} (s : State) (f : Nat → Nat → Nat → Nat → Read α) : Read α :=
  andThen (valueOf (.len .key) s.keyLen) fun k =>
  andThen (valueOf (.len .nonce) s.nonceLen) fun n =>
  andThen (valueOf (.len .inp) s.inLen) fun i =>
  andThen (valueOf (.len .out) s.outLen) fun o => f k n i o

/-- Where a length register holds no value, the read of the four is refused by the name of such a register. -/
theorem withLens_refuses {α : Type} {s : State} (f : Nat → Nat → Nat → Nat → Read α) (h : ∃ sp, spaceLen sp s = none) :
    ∃ sp, spaceLen sp s = none ∧ withLens s f = .refused (.noValue (.len sp)) := by
  cases hk : s.keyLen with
  | none => exact ⟨.key, hk, by simp [withLens, hk]⟩
  | some k =>
    cases hn : s.nonceLen with
    | none => exact ⟨.nonce, hn, by simp [withLens, hk, hn]⟩
    | some n =>
      cases hi : s.inLen with
      | none => exact ⟨.inp, hi, by simp [withLens, hk, hn, hi]⟩
      | some i =>
        cases ho : s.outLen with
        | none => exact ⟨.out, ho, by simp [withLens, hk, hn, hi, ho]⟩
        | some o =>
          obtain ⟨sp, hsp⟩ := h
          cases sp <;> simp_all [spaceLen]

theorem exec_check_eq (s : State) : exec .check s = withLens s fun k n i o =>
    if violationCauses k n i o ≠ 0#3 then .next (raiseViolation (violationCauses k n i o) s) else .next (advance s) := rfl

/-- In `IDLE` and `DONE` `STREAM` reads `CTR0`, then the four lengths, and refuses a shifted overlap last. -/
theorem exec_stream_eq {s : State} (h : s.status = .idle ∨ s.status = .done) : exec .stream s =
    andThen (valueOf .ctr0 s.ctr0) fun c => withLens s fun _ _ _ _ => andThen (placed s) fun _ => .next (startRun c s) := by
  have : ¬ (s.status = .busy ∨ s.status = .halt) := by rcases h with h | h <;> simp [h]
  rw [exec, execStream, if_neg this]
  rfl

/-- A word of `X` that holds no value is refused by its name. -/
theorem readX_of_none {i : Fin 16} {s : State} (h : s.x[i] = none) : readX i s = .refused (.noValue (.x i)) := by
  rw [readX, h, valueOf_none]

theorem readX_of_some {i : Fin 16} {w : Word} {s : State} (h : s.x[i] = some w) : readX i s = .next w := by
  rw [readX, h, valueOf_some]

/-- A quarter-round on four words of which one holds no value is refused, by the name of such a word. -/
theorem exec_qr_refuses {a b c d : Fin 16} {s : State} (hd : pairwiseDifferent a b c d = true)
    (h : ∃ i ∈ [a, b, c, d], s.x[i] = none) :
    ∃ i ∈ [a, b, c, d], s.x[i] = none ∧ exec (.qr a b c d) s = .refused (.noValue (.x i)) := by
  simp only [exec, execQr, if_pos hd]
  cases ha : s.x[a] with
  | none => exact ⟨a, by simp, ha, by rw [readX_of_none ha, andThen_refused]⟩
  | some wa =>
    rw [readX_of_some ha, andThen_next]
    cases hb : s.x[b] with
    | none => exact ⟨b, by simp, hb, by rw [readX_of_none hb, andThen_refused]⟩
    | some wb =>
      rw [readX_of_some hb, andThen_next]
      cases hc : s.x[c] with
      | none => exact ⟨c, by simp, hc, by rw [readX_of_none hc, andThen_refused]⟩
      | some wc =>
        rw [readX_of_some hc, andThen_next]
        have hnone : s.x[d] = none := by
          obtain ⟨i, hi, hn⟩ := h
          have : i = a ∨ i = b ∨ i = c ∨ i = d := by simpa using hi
          rcases this with rfl | rfl | rfl | rfl
          · rw [ha] at hn; cases hn
          · rw [hb] at hn; cases hn
          · rw [hc] at hn; cases hn
          · exact hn
        exact ⟨d, by simp, hnone, by rw [readX_of_none hnone, andThen_refused]⟩

/-- The bytes of a chunk that lies in both buffers, with a byte of `KS` missing, are refused by the name of such a byte. -/
theorem xorBytes_refuses {p : Nat} :
    ∀ {l : List (Fin 64)} {s : State}, (∀ k ∈ l, (∀ n, s.inLen = some n → p + k.val < n) ∧
      (∀ n, s.outLen = some n → p + k.val < n)) → (∃ k ∈ l, s.ks[k] = none) →
      ∃ j : Fin 64, s.ks[j] = none ∧ xorBytes p l s = .refused (.noValue (.ks j))
  | [], _, _, h => by simp at h
  | k :: rest, s, hl, h => by
    obtain ⟨hin, hout⟩ := hl k (by simp)
    rw [xorBytes]
    cases hk : s.ks[k] with
    | none =>
      have hx : xorByte p k s = .refused (.noValue (.ks k)) := by
        rw [xorByte, readSpace_of_lt (sp := .inp) hin, andThen_next, readKs, hk, valueOf_none, andThen_refused]
      exact ⟨k, hk, by rw [hx, andThen_refused]⟩
    | some z =>
      have hx := xorByte_eq_next_iff.mpr ⟨hin, hout, z, hk, rfl⟩
      have hrest : ∃ j ∈ rest, s.ks[j] = none := by
        obtain ⟨j, hj, hn⟩ := h
        rcases List.mem_cons.mp hj with rfl | hj
        · rw [hk] at hn; cases hn
        · exact ⟨j, hj, hn⟩
      rw [hx, andThen_next]
      simpa using xorBytes_refuses (p := p) (l := rest)
        (s := setByte .out (p + k.val) (xor8 (byteAt .inp (p + k.val) s) z) s)
        (fun j hj => by simpa using hl j (by simp [hj])) (by simpa using hrest)

/-- Where a word of `X` is missing, the instructions that read all of `X` name the first one. -/
theorem exec_refuses_of_x {s : State} (h : ∃ i : Fin 16, s.x[i] = none) :
    ∃ i : Fin 16, s.x[i] = none ∧ (∀ j : Fin 16, j < i → s.x[j].isSome = true) ∧
      exec .save s = .refused (.noValue (.x i)) ∧ exec .ser s = .refused (.noValue (.x i)) ∧
      exec .feedfwd s = .refused (.noValue (.x i)) := by
  have hn : ¬ ∀ i : Fin 16, s.x[i].isSome = true := by
    obtain ⟨i, hi⟩ := h
    exact fun hall => by simpa [hi] using hall i
  obtain ⟨i, hr, hi, hlt⟩ := readAll_refuses (loc := Loc.x) hn
  refine ⟨i, hi, hlt, ?_, ?_, ?_⟩ <;> simp only [exec, execSave, execSer, execFeedfwd, readAllX, hr, andThen_refused]

/-- Where all of `X` is held and a word of `S` is missing, `FEEDFWD` names one. -/
theorem exec_feedfwd_refuses_of_s {s : State} (hx : ∀ i : Fin 16, s.x[i].isSome = true) (h : ∃ i : Fin 16, s.sv[i] = none) :
    ∃ i : Fin 16, s.sv[i] = none ∧ exec .feedfwd s = .refused (.noValue (.s i)) := by
  have hn : ¬ ∀ i : Fin 16, s.sv[i].isSome = true := by
    obtain ⟨i, hi⟩ := h
    exact fun hall => by simpa [hi] using hall i
  obtain ⟨i, hr, hi, _⟩ := readAll_refuses (loc := Loc.s) hn
  obtain ⟨w, hw⟩ := exists_values hx
  exact ⟨i, hi, by simp only [exec, execFeedfwd, readAllX, readAllS, hw, readAll_map_some, andThen_next, hr, andThen_refused]⟩

/-- Settles O43: each clause by the read that meets the missing value. -/
theorem readOfNoValueRefused : Obligations.ReadOfNoValueRefused := by
  refine ⟨fun s h => ?_, fun s => exec_refuses_of_x, fun s => exec_feedfwd_refuses_of_s, fun a b c d s => exec_qr_refuses,
    fun d s hd hp => ?_, fun d s p hd hp hn => ?_, fun s h => ?_, fun s p n k hp hn ho hk hks hpl => ?_⟩
  · simp [exec, execLdctr, execCtrinc, h]
  · simp [exec, execBdone, execXorchunk, targetInRom_iff, hd, hp]
  · simp [exec, execBdone, execXorchunk, targetInRom_iff, hd, hp, hn]
  · rw [exec_check_eq]
    exact withLens_refuses _ h
  · have hrange : ∀ j ∈ chunkOffsets (min 64 (n - p)), (∀ m, s.inLen = some m → p + j.val < m) ∧
        (∀ m, s.outLen = some m → p + j.val < m) := by
      intro j hj
      have := mem_chunkOffsets.mp hj
      refine ⟨fun m hm => ?_, fun m hm => by have := ho m hm; omega⟩
      obtain rfl : n = m := by simpa [hn] using hm
      omega
    obtain ⟨j, hj, hx⟩ := xorBytes_refuses hrange ⟨k, mem_chunkOffsets.mpr hk, hks⟩
    refine ⟨j, hj, ?_⟩
    simp only [exec, execXorchunk, hp, hn, valueOf_some, andThen_next, placed_of_ne hpl]
    rw [show chunkLen n p = min 64 (n - p) from rfl, hx, andThen_refused]

/-- Settles O28: `CTR0` is read first, then the four lengths. -/
theorem streamWithoutOperandRefused : Obligations.StreamWithoutOperandRefused := by
  intro s hs h
  rw [exec_stream_eq hs]
  cases hc : s.ctr0 with
  | none => exact .inl ⟨rfl, by rw [valueOf_none, andThen_refused]⟩
  | some c =>
    rw [valueOf_some, andThen_next]
    exact .inr (withLens_refuses _ (h.resolve_left (by simp [hc])))

/-! ## What the host reads -/

/-- A read of `OUT` below `OUT_LEN` answers a byte, in every `STATUS`. -/
theorem hostReadOut_of_lt {a : Nat} {s : State} (h : ∀ n, s.outLen = some n → a < n) :
    hostReadOut a s = .next (if s.status = .done then byteAt .out a s else Config.undefinedOut a s.host.length) := by
  rw [hostReadOut, readSpace_of_lt (sp := .out) h, andThen_next]

/-- A read of `OUT` at or past `OUT_LEN` faults (R40). -/
theorem hostReadOut_of_le {a n : Nat} {s : State} (h : s.outLen = some n) (ha : n ≤ a) :
    hostReadOut a s = .fault (.outsideSpace .out a) := by
  rw [hostReadOut, readSpace_of_le (sp := .out) h ha, andThen_fault]

/-- Settles O46: the registers by their values, and the two reads as host moves. -/
theorem hostReads : Obligations.HostReads := by
  refine ⟨fun s => ?_, fun s => ⟨rfl, rfl⟩, fun s => ⟨fun v hv => ?_, fun hv => ?_⟩, fun s => ⟨rfl, rfl, rfl, rfl⟩,
    fun s a hs ha => ?_, fun s r rest hh => ?_, fun s a rest hh => ⟨fun ha => ?_, fun n hn ha => ?_⟩⟩
  · cases hs : s.status <;> simp [hostReadReg, statusCode, hs]
  · simp [hostReadReg, hv]
  · simp [hostReadReg, hv]
  · rw [hostReadOut_of_lt ha, if_pos hs]
  · rw [step_of_host_cons hh]
    cases r <;> rfl
  · rw [step_of_host_cons hh, hostTurn, hostReadOut_of_lt (s := { s with host := rest }) ha, andThen_next]
  · rw [step_of_host_cons hh, hostTurn, hostReadOut_of_le (s := { s with host := rest }) hn ha, andThen_fault]

end Sys2Proof.Machine
end

section
/-! What the operand spaces meet (R40, R47, R48, R52): the CORE writes `OUT` alone, a load that leaves its space faults at the first
offset outside it, and a mapping at a shifted offset is refused. -/

namespace Sys2Proof.Machine

/-! ## What no instruction writes -/

/-- No instruction writes an operand register, the mapping, the program, or a byte of `KEY`, `NONCE` or `IN` but as `OUT`'s own. -/
theorem inputsUnchanged_of_exec {i : Instr} {s t : State} (h : exec i s = .next t) : InputsUnchanged s t := by
  cases exec_shape h with
  | same _ _ ht | start _ _ _ _ _ _ ht | halt _ _ _ _ _ _ _ _ _ _ ht | finish _ ht | regs _ _ _ _ _ _ _ ht | ctr _ _ _ ht =>
    subst ht
    exact inputsUnchanged_of_fields rfl rfl rfl rfl rfl rfl rfl (fun _ => rfl) rfl rfl rfl
  | chunk _ _ _ _ _ _ _ _ hd ht =>
    subst ht
    exact inputsUnchanged_of_fields rfl rfl rfl rfl rfl rfl rfl hd.input rfl rfl rfl

/-- An instruction other than `XORCHUNK` writes no byte of `OUT`. -/
theorem byteAt_out_of_exec {i : Instr} {s t : State} (h : exec i s = .next t) (hi : i ≠ .xorchunk) (a : Nat) :
    byteAt .out a t = byteAt .out a s := by
  cases exec_shape h with
  | same _ _ ht | start _ _ _ _ _ _ ht | halt _ _ _ _ _ _ _ _ _ _ ht | finish _ ht | regs _ _ _ _ _ _ _ ht | ctr _ _ _ ht =>
    subst ht
    rfl
  | chunk hx => exact absurd hx hi

/-- The bytes of a chunk of `m` lie at `p..p + m`: `OUT` keeps every byte before it and after it. -/
theorem XorBytesDone.outside {p m : Nat} {s t : State} (h : XorBytesDone p (chunkOffsets m) s t) {a : Nat}
    (ha : a < p ∨ p + m ≤ a) : byteAt .out a t = byteAt .out a s :=
  h.kept a fun k hk => by
    have := mem_chunkOffsets.mp hk
    omega

/-- `XORCHUNK` that goes on has read `POS` and `IN_LEN`, and has written no byte of `OUT` outside the chunk. -/
theorem byteAt_out_of_xorchunk {s t : State} (h : exec .xorchunk s = .next t) : ∃ p n, s.pos = some p ∧ s.inLen = some n ∧
    ∀ a, a < p ∨ p + min 64 (n - p) ≤ a → byteAt .out a t = byteAt .out a s := by
  cases exec_shape h with
  | same hi | start hi | halt hi | finish hi | ctr hi => cases hi
  | regs _ _ _ _ hi =>
    obtain ⟨_, _, _, hx⟩ := hi
    exact absurd rfl hx
  | chunk _ p n _ _ hp hn _ hd ht =>
    subst ht
    exact ⟨p, n, hp, hn, fun _ => hd.outside⟩

/-- Settles O39: the inputs and `OUT` by the shapes of an instruction; the mapping is the same after it, so that `IN` still reads as
`OUT` where it did. -/
theorem coreWritesOnlyOut : Obligations.CoreWritesOnlyOut := by
  intro i s t h
  have hI := inputsUnchanged_of_exec h
  refine ⟨hI, byteAt_out_of_exec h, ?_, fun hp a => ⟨?_, ?_⟩⟩
  · rintro rfl
    exact byteAt_out_of_xorchunk h
  · exact (byteAt_out_of_same hp a).symm
  · exact (byteAt_out_of_same (hI.placement.trans hp) a).symm

/-! ## Loads that leave their space -/

/-- A word that begins inside its space, or right at its end, and reaches past it faults at the first offset outside. -/
theorem readWordLe_of_past {sp : Space} {a n : Nat} {s : State} (hn : spaceLen sp s = some n) (ha : a ≤ n) (hp : n < a + 4) :
    readWordLe sp a s = .fault (.outsideSpace sp n) := by
  have inside : ∀ b < n, readSpace sp b s = .next (byteAt sp b s) := fun b hb =>
    readSpace_of_lt fun m hm => by
      obtain rfl : n = m := by simpa [hn] using hm
      exact hb
  have first : readSpace sp n s = .fault (.outsideSpace sp n) := readSpace_of_le hn (le_refl n)
  unfold readWordLe
  obtain rfl | rfl | rfl | rfl : n = a ∨ n = a + 1 ∨ n = a + 2 ∨ n = a + 3 := by omega
  · rw [first, andThen_fault]
  · rw [inside a (by omega), andThen_next, first, andThen_fault]
  · rw [inside a (by omega), andThen_next, inside (a + 1) (by omega), andThen_next, first, andThen_fault]
  · rw [inside a (by omega), andThen_next, inside (a + 1) (by omega), andThen_next, inside (a + 2) (by omega), andThen_next, first,
      andThen_fault]

/-- A load of words that lie one after another from offset `a` on, and reach past the end of their space, faults there. -/
theorem loadWords_of_past {sp : Space} {n : Nat} :
    ∀ {l : List (Nat × Fin 16)} {a : Nat} {s : State}, l.map Prod.fst = List.range' a l.length 4 → spaceLen sp s = some n →
      a ≤ n → n < a + 4 * l.length → loadWords sp l s = .fault (.outsideSpace sp n)
  | [], a, _, _, _, ha, hp => by simp at hp; omega
  | (b, i) :: rest, a, s, hl, hn, ha, hp => by
    simp only [List.map_cons, List.length_cons, List.range'_succ, List.cons.injEq] at hl hp
    obtain ⟨rfl, hrest⟩ := hl
    rw [loadWords]
    by_cases hw : n < b + 4
    · rw [readWordLe_of_past hn ha hw, andThen_fault]
    · have hread : readWordLe sp b s = .next (wordAt sp b s) := readWordLe_eq_next_iff.mpr ⟨fun m hm => by
        obtain rfl : n = m := by simpa [hn] using hm
        omega, rfl⟩
      rw [hread, andThen_next]
      exact loadWords_of_past hrest (by rw [spaceLen_writeX, hn]) (by omega) (by omega)

/-- Settles O44: the words of both layouts lie one after another from offset 0 on. -/
theorem loadOutsideSpaceFaults : Obligations.LoadOutsideSpaceFaults := by
  refine ⟨fun s n hn hlt => ?_, fun s n hn hlt => ?_⟩
  · rw [exec, execLdkey, loadWords_of_past (sp := .key) (l := keyLayout) rfl hn (Nat.zero_le n) hlt, andThen_fault]
  · rw [exec, execLdnonce, loadWords_of_past (sp := .nonce) (l := nonceLayout) rfl hn (Nat.zero_le n) hlt, andThen_fault]

/-! ## A mapping at a shifted offset -/

/-- Where the four length registers hold values, the read of the four goes on. -/
theorem withLens_of_held {α : Type} {s : State} (f : Nat → Nat → Nat → Nat → Read α) (h : ∀ sp, (spaceLen sp s).isSome = true) :
    ∃ k n i o, withLens s f = f k n i o := by
  obtain ⟨k, hk⟩ := Option.isSome_iff_exists.mp (h .key)
  obtain ⟨n, hn⟩ := Option.isSome_iff_exists.mp (h .nonce)
  obtain ⟨i, hi⟩ := Option.isSome_iff_exists.mp (h .inp)
  obtain ⟨o, ho⟩ := Option.isSome_iff_exists.mp (h .out)
  simp only [spaceLen] at hk hn hi ho
  exact ⟨k, n, i, o, by simp [withLens, hk, hn, hi, ho]⟩

/-- A fill of `IN` or `OUT` is refused where the two overlap at a shifted offset (R52). -/
theorem hostFill_of_shifted {sp : Space} {a : Nat} {b : Byte} {s : State} (hs : s.placement = .shifted) (hp : sp = .inp ∨ sp = .out) :
    hostFill sp a b s = .refused .shiftedOverlap := by
  obtain rfl | rfl := hp <;> rw [hostFill, placed_of_shifted hs, andThen_refused]

/-- Settles O54: each of the three comes to the test of the mapping once what it reads before that is held. -/
theorem shiftedOverlapRefused : Obligations.ShiftedOverlapRefused := by
  refine ⟨fun s c hs hst hc hl => ?_, fun s p n hs hp hn => ?_, fun s rest sp a b hs hh hst hsp => ?_⟩
  · obtain ⟨_, _, _, _, hw⟩ := withLens_of_held (fun _ _ _ _ => andThen (placed s) fun _ => .next (startRun c s)) hl
    rw [exec_stream_eq hst, hc, valueOf_some, andThen_next, hw, placed_of_shifted hs, andThen_refused]
  · rw [exec, execXorchunk, hp, hn, valueOf_some, valueOf_some, andThen_next, andThen_next, placed_of_shifted hs, andThen_refused]
  · have hw : hostMayWrite { s with host := rest } = true := hostMayWrite_iff.mpr hst
    rw [step_of_host_cons hh, hostTurn, if_pos hw, hostFill_of_shifted (s := { s with host := rest }) hs hsp]

end Sys2Proof.Machine
end

section
/-! The block transformation as a run of the ROM (R94, R125): from index 2, the four loads leave `init_fn` in `X`, and the eighty-seven
micro-operations up to index 89 leave `block_fn` in `KS`. -/

namespace Sys2Proof.Machine

section
variable {s : State} {c : Word} {j : Nat}

/-! ## The loads -/

/-- A load whose words all lie below the length of their space, if the length register holds one, writes `X` alone. -/
theorem loadWords_of_inside {sp : Space} {l : List (Nat × Fin 16)} (h : ∀ n, spaceLen sp s = some n → ∀ p ∈ l, p.1 + 3 < n) :
    loadWords sp l s = .next { s with x := loadX (fun a => wordAt sp a s) l s.x } := by
  obtain ⟨t, ht⟩ := loadWords_of_lt h
  rw [ht, eq_of_loadWords ht]

theorem exec_ldkey_of_len (hk : ∀ n, s.keyLen = some n → 32 ≤ n) :
    exec .ldkey s = .next (advance { s with x := loadX (fun a => wordAt .key a s) keyLayout s.x }) := by
  have inside : ∀ p ∈ keyLayout, p.1 + 3 < 32 := by decide
  rw [exec, execLdkey, loadWords_of_inside (sp := .key) fun n hn p hp => by have := hk n hn; have := inside p hp; omega,
    andThen_next]

theorem exec_ldnonce_of_len (hn : ∀ n, s.nonceLen = some n → 12 ≤ n) :
    exec .ldnonce s = .next (advance { s with x := loadX (fun a => wordAt .nonce a s) nonceLayout s.x }) := by
  have inside : ∀ p ∈ nonceLayout, p.1 + 3 < 12 := by decide
  rw [exec, execLdnonce, loadWords_of_inside (sp := .nonce) fun n hl p hp => by have := hn n hl; have := inside p hp; omega,
    andThen_next]

/-- The four constant words in `X[0..4]` (R90). -/
def constX (x : Vector (Option Word) 16) : Vector (Option Word) 16 :=
  (((x.set 0 (some (constWord 0))).set 1 (some (constWord 1))).set 2 (some (constWord 2))).set 3 (some (constWord 3))

/-- What the four loads leave in `X`, whatever it held: the sixteen words of `init_fn` (R22, R94). -/
theorem initX_eq (x : Vector (Option Word) 16) :
    loadX (fun a => wordAt .nonce a s) nonceLayout ((loadX (fun a => wordAt .key a s) keyLayout (constX x)).set 12 (some c)) =
      (initFn (keyOf s) (nonceOf s) c).map some := by
  ext1 i hi
  interval_cases i <;>
    simp [loadX, nonceLayout, keyLayout, constX, initFn, wordLeAt, wordAt, keyOf, nonceOf]

/-! ## The loads as a run -/

/-- In an undisturbed run a step of the ROM at index `k` that goes on is one step of the run. -/
theorem run_rom_at {t : State} {i : Instr} (k j : Nat) (hu : Undisturbed s) (hb : s.status = .busy) (hq : s.seq.toNat = k)
    (hi : romOps[k]? = some i) (hx : exec i s = .next t) : run (j + 1) s = run j t :=
  run_succ ((step_rom_at k hu hb hq hi).trans hx) j

@[simp] theorem atIndex_ctr (k : Nat) (x : Vector (Option Word) 16) : (atIndex s k x).ctr = s.ctr := rfl
@[simp] theorem atIndex_x (k : Nat) (x : Vector (Option Word) 16) : (atIndex s k x).x = x := rfl

@[simp] theorem wordAt_atIndex (sp : Space) (a k : Nat) (x : Vector (Option Word) 16) : wordAt sp a (atIndex s k x) = wordAt sp a s := by
  cases sp <;> rfl

/-- An instruction that writes `X` alone and advances goes from one index to the next. -/
theorem advance_atIndex (k : Nat) (x x' : Vector (Option Word) 16) :
    advance { atIndex s k x with x := x' } = atIndex s (k + 1) x' := by
  simp only [advance, atIndex, ← BitVec.ofNat_add]

/-- The four loads `ROM[2..6]` leave `init_fn` of the key, the nonce and the counter in `X`, and write nothing else (R94). -/
theorem run_init (x : Vector (Option Word) 16) (j : Nat) (hu : Undisturbed s) (hb : s.status = .busy) (hc : s.ctr = some c)
    (hk : ∀ n, s.keyLen = some n → 32 ≤ n) (hn : ∀ n, s.nonceLen = some n → 12 ≤ n) :
    run (j + 4) (atIndex s 2 x) = run j (atIndex s 6 ((initFn (keyOf s) (nonceOf s) c).map some)) := by
  have hconst : ∀ x, exec .ldconst (atIndex s 2 x) = .next (atIndex s 3 (constX x)) := fun x =>
    congrArg _ (advance_atIndex 2 x (constX x))
  have hkey : ∀ x, exec .ldkey (atIndex s 3 x) = .next (atIndex s 4 (loadX (fun a => wordAt .key a s) keyLayout x)) := fun x => by
    rw [exec_ldkey_of_len (s := atIndex s 3 x) hk, advance_atIndex]
    simp
  have hctr : ∀ x, exec .ldctr (atIndex s 4 x) = .next (atIndex s 5 (x.set 12 (some c))) := fun x => by
    rw [exec, execLdctr, atIndex_ctr, hc]
    exact congrArg _ (advance_atIndex 4 x _)
  have hnonce : ∀ x, exec .ldnonce (atIndex s 5 x) = .next (atIndex s 6 (loadX (fun a => wordAt .nonce a s) nonceLayout x)) := fun x => by
    rw [exec_ldnonce_of_len (s := atIndex s 5 x) hn, advance_atIndex]
    simp
  rw [← initX_eq x, run_rom_at (s := atIndex s 2 x) 2 (j + 3) hu hb rfl rfl (hconst x),
    run_rom_at (s := atIndex s 3 _) 3 (j + 2) hu hb rfl rfl (hkey _),
    run_rom_at (s := atIndex s 4 _) 4 (j + 1) hu hb rfl rfl (hctr _), run_rom_at (s := atIndex s 5 _) 5 j hu hb rfl rfl (hnonce _)]

/-! ## The block as a run -/

/-- The state with the initial state of the block at counter `c` saved in `S`, and all else as in `s` (R120). -/
def afterSave (s : State) (c : Word) : State := { s with sv := (initFn (keyOf s) (nonceOf s) c).map some }

/-- The state after the block transformation from `s` with the counter `c`: the initial state in `S`, the final one in `X`, its
sixty-four bytes in `KS`, and all else as in `s`. -/
def afterBlock (s : State) (c : Word) : State :=
  let i := initFn (keyOf s) (nonceOf s) c
  { s with
    x := (addWords (mixFn i) i).map some
    sv := i.map some
    ks := (blockFn (keyOf s) (nonceOf s) c).map some
    seq := 89#7 }

/-- The eighty-seven micro-operations `ROM[2..89]` are the block transformation (R125). -/
theorem run_block (x : Vector (Option Word) 16) (j : Nat) (hu : Undisturbed s) (hb : s.status = .busy) (hc : s.ctr = some c)
    (hk : ∀ n, s.keyLen = some n → 32 ≤ n) (hn : ∀ n, s.nonceLen = some n → 12 ≤ n) :
    run (j + 87) (atIndex s 2 x) = run j (afterBlock s c) := by
  let i := initFn (keyOf s) (nonceOf s) c
  calc run (j + 87) (atIndex s 2 x)
    _ = run (j + 83) (atIndex s 6 (i.map some)) := run_init x (j + 83) hu hb hc hk hn
    _ = run (j + 2 + 8 * 10) (atIndex (afterSave s c) 7 (i.map some)) := run_rom_at 6 (j + 82) hu hb rfl rfl (execSave_of_words rfl)
    _ = run (j + 2) (atIndex (afterSave s c) 87 ((mixFn i).map some)) := run_mix (s := afterSave s c) i hu hb 10 (j + 2) (le_refl 10)
    _ = run (j + 1) (atIndex (afterSave s c) 88 ((addWords (mixFn i) i).map some)) :=
      run_rom_at 87 (j + 1) hu hb rfl rfl (execFeedfwd_of_words rfl rfl)
    _ = run j (afterBlock s c) := run_rom_at 88 j hu hb rfl rfl (execSer_of_words rfl)

end
end Sys2Proof.Machine
end

section
/-! A whole run of the ROM (R151, R168): one lap of its loop is one chunk, and the laps together leave `stream_fn` of the input in `OUT`,
whether `IN` and `OUT` are apart or the same bytes (R52). -/

namespace Sys2Proof.Machine

/-! ## One lap of the loop -/

section
variable {s : State} {c : Word} {p n : Nat}

/-- The state after a chunk from `s`: the memories that hold `OUT` as given, `POS` at `p`, the next index, and all else as in `s`. -/
def afterChunk (s : State) (p : Nat) (inp out : Memory) : State :=
  { s with inp := inp, out := out, pos := some p, seq := s.seq + 1#7 }

/-- `XORCHUNK` goes on where the chunk lies in both buffers and its keystream is held, and then writes the chunk, `POS` and `SEQ`
alone (R154). -/
theorem exec_xorchunk_of_held (hp : s.pos = some p) (hn : s.inLen = some n) (ho : ∀ o, s.outLen = some o → p + min 64 (n - p) ≤ o)
    (hks : ∀ k : Fin 64, k.val < min 64 (n - p) → s.ks[k].isSome = true) (hpl : s.placement ≠ .shifted) :
    ∃ inp out, exec .xorchunk s = .next (afterChunk s (p + min 64 (n - p)) inp out) ∧
      XorBytesDone p (chunkOffsets (min 64 (n - p))) s { s with inp := inp, out := out } := by
  obtain ⟨u, hu⟩ := xorBytes_of_held (p := p) (l := chunkOffsets (min 64 (n - p))) (s := s) fun k hk => by
    have hlt := mem_chunkOffsets.mp hk
    refine ⟨fun m hm => ?_, fun m hm => by have := ho m hm; omega, hks k hlt⟩
    obtain rfl : n = m := by simpa [hn] using hm
    omega
  have hd := xorBytesDone_of_next p hu
  have hx : exec .xorchunk s = .next (advance { u with pos := some (p + min 64 (n - p)) }) := by
    simp only [exec, execXorchunk, hp, hn, valueOf_some, andThen_next, placed_of_ne hpl]
    rw [show chunkLen n p = min 64 (n - p) from rfl, hu, andThen_next]
  rw [hd.same] at hx hd
  exact ⟨u.inp, u.out, hx, hd⟩

/-- The state after one lap of the loop from `s` with the counter `c`: that after the block and the chunk, but for the counter, and
`SEQ` at the loop's head. -/
def afterLap (s : State) (c : Word) (p : Nat) (inp out : Memory) : State :=
  { afterChunk (afterBlock s c) p inp out with ctr := some (add32 c 1#32), seq := 1#7 }

/-- The ninety-one steps of a lap (R168): `BDONE`, which goes on while input is left, the block, `XORCHUNK`, `CTRINC` and `JMP 1`. -/
theorem run_lap (hu : Undisturbed s) (hb : s.status = .busy) (hq : s.seq = 1#7) (hp : s.pos = some p) (hn : s.inLen = some n)
    (hpn : p ≠ n) (hc : s.ctr = some c) (hkey : ∀ k, s.keyLen = some k → 32 ≤ k) (hnonce : ∀ k, s.nonceLen = some k → 12 ≤ k)
    (ho : ∀ o, s.outLen = some o → p + min 64 (n - p) ≤ o) (hpl : s.placement ≠ .shifted) :
    ∃ inp out, XorBytesDone p (chunkOffsets (min 64 (n - p))) (afterBlock s c) { afterBlock s c with inp := inp, out := out } ∧
      ∀ j, run (j + 91) s = run j (afterLap s c (p + min 64 (n - p)) inp out) := by
  have hbdone : exec (.bdone 92#8) s = .next (atIndex s 2 s.x) :=
    exec_bdone_eq_next_iff.mpr ⟨by decide, p, n, hp, hn, by rw [if_neg hpn, advance, hq]; rfl⟩
  obtain ⟨inp, out, hx, hd⟩ := exec_xorchunk_of_held (s := afterBlock s c) hp hn ho (fun k _ => by simp [afterBlock]) hpl
  have hctrinc : ∀ u : State, u.ctr = some c → exec .ctrinc u = .next (advance { u with ctr := some (add32 c 1#32) }) := fun u h => by
    rw [exec, execCtrinc, h, valueOf_some, andThen_next]
  refine ⟨inp, out, hd, fun j => ?_⟩
  calc run (j + 91) s
    _ = run (j + 90) (atIndex s 2 s.x) := run_rom_at 1 (j + 90) hu hb (by rw [hq]; rfl) rfl hbdone
    _ = run (j + 3) (afterBlock s c) := run_block s.x (j + 3) hu hb hc hkey hnonce
    _ = run (j + 2) (afterChunk (afterBlock s c) (p + min 64 (n - p)) inp out) := run_rom_at 89 (j + 2) hu hb rfl rfl hx
    _ = run (j + 1) _ := run_rom_at 90 (j + 1) hu hb rfl rfl (hctrinc _ hc)
    _ = run j (afterLap s c (p + min 64 (n - p)) inp out) := run_rom_at 91 j hu hb rfl rfl rfl

end

/-! ## The run up to a chunk -/

/-- Byte `k` of chunk `j` of the keystream is byte `k` of the block at counter `c0 + j` (R66). -/
theorem keystreamByte_chunk (key : Vector Byte 32) (nonce : Vector Byte 12) (c0 : Word) (j : Nat) (k : Fin 64) :
    keystreamByte key nonce c0 (64 * j + k.val) = (blockFn key nonce (add32 c0 (BitVec.ofNat 32 j)))[k] := by
  have hdiv : (64 * j + k.val) / 64 = j := by omega
  have hmod : (64 * j + k.val) % 64 = k.val := by omega
  simp [keystreamByte, hdiv, hmod]

/-- In a run from `s₀` over `n` bytes with the starting counter `c0`, the first `j` chunks are done: `POS` and the counter are past
them, their bytes of `OUT` are the input xor the keystream, and the other bytes and the operands are as at the start. -/
structure Streamed (s₀ : State) (c0 : Word) (n j : Nat) (s : State) : Prop where
  busy : s.status = .busy
  fault : s.fault = 0#3
  pos : s.pos = some (min (64 * j) n)
  ctr : s.ctr = some (add32 c0 (BitVec.ofNat 32 j))
  inputs : InputsUnchanged s₀ s
  written : ∀ a, a < min (64 * j) n →
    byteAt .out a s = xor8 (byteAt .inp a s₀) (keystreamByte (keyOf s₀) (nonceOf s₀) c0 a)
  kept : ∀ a, min (64 * j) n ≤ a → byteAt .out a s = byteAt .out a s₀

section
variable {s₀ s : State} {c0 : Word} {n j : Nat}

/-- An input byte of a chunk still to be done is as at the start, on the same bytes as `OUT` too. -/
theorem Streamed.byteAt_inp (h : Streamed s₀ c0 n j s) {a : Nat} (ha : min (64 * j) n ≤ a) : byteAt .inp a s = byteAt .inp a s₀ :=
  byteAt_inp_of_inputs h.inputs (h.kept a ha)

theorem Streamed.undisturbed (h : Streamed s₀ c0 n j s) (hu : Undisturbed s₀) : Undisturbed s :=
  hu.imp h.inputs.host.trans h.inputs.program.trans

/-- After the chunk's bytes are written, one more chunk is done. -/
theorem streamed_afterLap (h : Streamed s₀ c0 n j s) (hj : 64 * j < n) {inp out : Memory}
    (hd : XorBytesDone (64 * j) (chunkOffsets (min 64 (n - 64 * j))) (afterBlock s (add32 c0 (BitVec.ofNat 32 j)))
      { afterBlock s (add32 c0 (BitVec.ofNat 32 j)) with inp := inp, out := out }) :
    Streamed s₀ c0 n (j + 1) (afterLap s (add32 c0 (BitVec.ofNat 32 j)) (64 * j + min 64 (n - 64 * j)) inp out) where
  busy := h.busy
  fault := h.fault
  pos := congrArg some (by omega)
  ctr := congrArg some (by simp only [add32, BitVec.ofNat_add, BitVec.add_assoc])
  inputs := inputsUnchanged_trans h.inputs (inputsUnchanged_of_fields rfl rfl rfl rfl rfl rfl rfl hd.input rfl rfl rfl)
  written := fun a ha => by
    by_cases hlt : a < 64 * j
    · exact (hd.outside (.inl hlt)).trans (h.written a (by omega))
    · obtain ⟨k, rfl⟩ : ∃ k : Fin 64, a = 64 * j + k.val := ⟨⟨a - 64 * j, by omega⟩, by simp; omega⟩
      obtain ⟨z, hz, hbyte⟩ := hd.written (chunkOffsets_nodup _) k (mem_chunkOffsets.mpr (by omega))
      have hks : (blockFn (keyOf s) (nonceOf s) (add32 c0 (BitVec.ofNat 32 j)))[k] = z := by simpa [afterBlock] using hz
      have hinp : byteAt .inp (64 * j + k.val) s = byteAt .inp (64 * j + k.val) s₀ := h.byteAt_inp (by omega)
      rw [keystreamByte_chunk, ← keyOf_eq_of_inputs h.inputs, ← nonceOf_eq_of_inputs h.inputs, hks, ← hinp]
      exact hbyte
  kept := fun a ha => (hd.outside (.inr (by omega))).trans (h.kept a (by omega))

/-! ## The whole run -/

/-- The chunks cover the input (R66). -/
theorem min_chunks (n : Nat) : min (64 * chunks n) n = n := by
  unfold chunks
  omega

/-- The run's first step, `CHECK`, finds no cause and leads to the loop's head with no chunk done. -/
theorem run_check (h0 : AtRunStart c0 n s₀) (hu : Undisturbed s₀) :
    ∃ s, run 1 s₀ = .next s ∧ s.seq = 1#7 ∧ Streamed s₀ c0 n 0 s := by
  have hx := exec_check_of_lens h0.keyLen h0.nonceLen h0.inLen h0.outLen
  rw [if_pos (violationCauses_eq_zero_iff.mpr ⟨rfl, rfl, rfl⟩)] at hx
  refine ⟨advance s₀, run_rom_at 0 0 hu h0.status (by rw [h0.seq]; rfl) rfl hx, by simp [h0.seq], ?_⟩
  exact {
    busy := h0.status
    fault := h0.fault
    pos := by simp [h0.pos]
    ctr := by simp [h0.ctr, add32]
    inputs := inputsUnchanged_of_fields rfl rfl rfl rfl rfl rfl rfl (fun _ => rfl) rfl rfl rfl
    written := by simp
    kept := fun _ _ => rfl }

/-- From the loop's head with input left, ninety-one steps do one chunk and lead to the loop's head again. -/
theorem run_chunk (h0 : AtRunStart c0 n s₀) (hu : Undisturbed s₀) (h : Streamed s₀ c0 n j s) (hq : s.seq = 1#7) (hj : 64 * j < n) :
    ∃ t, run 91 s = .next t ∧ t.seq = 1#7 ∧ Streamed s₀ c0 n (j + 1) t := by
  have hlens := h.inputs.lens
  have hkey : s.keyLen = some 32 := (hlens .key).trans h0.keyLen
  have hnonce : s.nonceLen = some 12 := (hlens .nonce).trans h0.nonceLen
  have hinp : s.inLen = some n := (hlens .inp).trans h0.inLen
  have hout : s.outLen = some n := (hlens .out).trans h0.outLen
  have hpos : s.pos = some (64 * j) := h.pos.trans (congrArg some (by omega))
  obtain ⟨inp, out, hd, hrun⟩ := run_lap (h.undisturbed hu) h.busy hq hpos hinp (by omega) h.ctr (by simp [hkey]) (by simp [hnonce])
    (by simp [hout]; omega) (h.inputs.placement.symm ▸ h0.placed)
  exact ⟨_, hrun 0, rfl, streamed_afterLap h hj hd⟩

/-- After the check and `j` laps, `j` chunks are done. -/
theorem run_chunks (h0 : AtRunStart c0 n s₀) (hu : Undisturbed s₀) :
    ∀ j, j ≤ chunks n → ∃ s, run (1 + 91 * j) s₀ = .next s ∧ s.seq = 1#7 ∧ Streamed s₀ c0 n j s
  | 0, _ => run_check h0 hu
  | j + 1, hj => by
    obtain ⟨s, hs, hq, h⟩ := run_chunks h0 hu j (by omega)
    obtain ⟨t, ht, hnext⟩ := run_chunk h0 hu h hq (by unfold chunks at hj; omega)
    exact ⟨t, by rw [show 1 + 91 * (j + 1) = 1 + 91 * j + 91 by omega, run_add 91 hs, ht], hnext⟩

/-- After all the chunks the `BDONE` goes to the `END`, which is the run's last step. -/
theorem run_to_end (h0 : AtRunStart c0 n s₀) (hu : Undisturbed s₀) :
    ∃ s, run (2 + 91 * chunks n) s₀ = .next s ∧ s.seq = 92#7 ∧ Streamed s₀ c0 n (chunks n) s ∧
      step s = .next (finishRun s) := by
  obtain ⟨s, hs, hq, h⟩ := run_chunks h0 hu (chunks n) (le_refl _)
  have hb : exec (.bdone 92#8) s = .next (goTo 92#8 s) :=
    exec_bdone_eq_next_iff.mpr ⟨by decide, n, n, h.pos.trans (congrArg some (min_chunks n)), (h.inputs.lens .inp).trans h0.inLen, by simp⟩
  have hend : Streamed s₀ c0 n (chunks n) (goTo 92#8 s) := ⟨h.busy, h.fault, h.pos, h.ctr,
    inputsUnchanged_trans h.inputs (inputsUnchanged_of_exec hb), h.written, h.kept⟩
  refine ⟨goTo 92#8 s, ?_, rfl, hend, step_rom_at 92 (hend.undisturbed hu) hend.busy rfl rfl⟩
  rw [show 2 + 91 * chunks n = 1 + 91 * chunks n + 1 by omega, run_add 1 hs,
    run_rom_at 1 0 (h.undisturbed hu) h.busy (by rw [hq]; rfl) rfl hb, run_zero]

/-- Where every byte of `OUT` is the input byte xor the keystream byte, `OUT` is `stream_fn` of the input (R151). -/
theorem bytesOf_out_eq_streamFn {t : State}
    (h : ∀ a, a < n → byteAt .out a t = xor8 (byteAt .inp a s) (keystreamByte (keyOf s) (nonceOf s) c0 a)) :
    bytesOf .out n t = streamFn (keyOf s) (nonceOf s) c0 (bytesOf .inp n s) := by
  refine List.ext_getElem (by simp [bytesOf, streamFn]) fun a ha _ => ?_
  simpa [bytesOf, streamFn] using h a (by simpa [bytesOf] using ha)

/-- A run of the ROM over `n` bytes ends in `DONE`, after `3 + 91 ceil(n / 64)` steps, with `stream_fn` of the input in `OUT`; it keeps
the other bytes of `OUT` and its inputs. -/
theorem run_stream (h0 : AtRunStart c0 n s₀) (hu : Undisturbed s₀) :
    ∃ t, run (3 + 91 * chunks n) s₀ = .next t ∧ t.status = .done ∧ t.fault = 0#3 ∧ t.seq = 92#7 ∧ InternalCleared t ∧
      bytesOf .out n t = streamFn (keyOf s₀) (nonceOf s₀) c0 (bytesOf .inp n s₀) ∧
      (∀ a, n ≤ a → byteAt .out a t = byteAt .out a s₀) ∧ InputsUnchanged s₀ t := by
  obtain ⟨s, hs, hq, h, hend⟩ := run_to_end h0 hu
  have hfin : exec .endrun s = .next (finishRun s) := rfl
  refine ⟨finishRun s, ?_, rfl, h.fault, hq, internalCleared_clearInternal s, bytesOf_out_eq_streamFn fun a ha => ?_, fun a ha => ?_,
    inputsUnchanged_trans h.inputs (inputsUnchanged_of_exec hfin)⟩
  · rw [show 3 + 91 * chunks n = 2 + 91 * chunks n + 1 by omega, run_add 1 hs, run_succ hend, run_zero]
  · exact h.written a (by rwa [min_chunks])
  · exact h.kept a (by rwa [min_chunks])

end

/-! ## The mapping of `IN` and `OUT` -/

theorem bytesOf_congr {sp sq : Space} {n : Nat} {s t : State} (h : ∀ a, a < n → byteAt sp a s = byteAt sq a t) :
    bytesOf sp n s = bytesOf sq n t :=
  List.map_congr_left fun a ha => h a (List.mem_range.mp ha)

/-- Settles O53: both runs leave `stream_fn` of the one input in `OUT`, since the mapping is neither an operand of it nor changes the
bytes of `IN` before the run. -/
theorem inPlaceSameResult : Obligations.InPlaceSameResult := by
  intro s c0 n h0 hu hapart
  have h0' : AtRunStart c0 n { s with placement := .same } := { h0 with placed := by simp }
  obtain ⟨t, ht, htd, _, _, _, htout, _, htin⟩ := run_stream h0 hu
  obtain ⟨u, hu', hud, _, _, _, huout, hukept, huin⟩ := run_stream h0' hu
  have hsame : u.placement = .same := huin.placement
  have hout : bytesOf .out n u = bytesOf .out n t := huout.trans htout.symm
  refine ⟨t, u, ht, hu', htd, hud, hout, ?_, ?_, fun a ha => ?_⟩
  · rw [← hout]
    exact bytesOf_congr fun a _ => (byteAt_out_of_same hsame a).symm
  · exact bytesOf_congr fun a _ => htin.inp (by simp [hapart]) a
  · exact (byteAt_inp_of_inputs huin (hukept a ha)).trans rfl

end Sys2Proof.Machine
end

section
/-! The decoder and the encoder undo each other (R67 to R72, R80 to R82): each format's decoder accepts by the numbers of the word's
fields, and the opcode says which format decodes the word. -/

namespace Sys2Proof.Machine

/-! ## Operands that are not reserved -/

theorem pairwiseDifferent_iff {a b c d : Fin 16} :
    pairwiseDifferent a b c d = true ↔ a ≠ b ∧ a ≠ c ∧ a ≠ d ∧ b ≠ c ∧ b ≠ d ∧ c ≠ d := by
  simp [pairwiseDifferent, and_assoc]

theorem wf_qr_iff {a b c d : Fin 16} : (Instr.qr a b c d).wf = true ↔ pairwiseDifferent a b c d = true := by
  cases h : pairwiseDifferent a b c d <;> simp [Instr.wf, Instr.illFormed, h]

theorem wf_bdone_iff {t : BitVec 8} : (Instr.bdone t).wf = true ↔ t.toNat ≤ 92 := by
  rw [← targetInRom_iff]
  cases h : targetInRom t <;> simp [Instr.wf, Instr.illFormed, h]

theorem wf_jmp_iff {t : BitVec 8} : (Instr.jmp t).wf = true ↔ t.toNat ≤ 92 := by
  rw [← targetInRom_iff]
  cases h : targetInRom t <;> simp [Instr.wf, Instr.illFormed, h]

/-! ## The operand field of each format -/

section
variable {w : Word} {i : Instr}

/-- An index of format Q is the number of its field. -/
theorem indexField_eq_iff {lo : Nat} {a : Fin 16} : (w.extractLsb' lo 4).toFin = a ↔ w.toNat / 2 ^ lo % 2 ^ 4 = a.val := by
  rw [← toNat_field, Fin.ext_iff]
  rfl

theorem decodeN_eq_ok_iff {j : Instr} : decodeN j w = .ok i ↔ w.toNat % 2 ^ 16 = 0 ∧ j = i := by
  have hfield : w.extractLsb' 0 16 = 0#16 ↔ w.toNat % 2 ^ 16 = 0 := by rw [field_eq_iff w (by decide), Nat.pow_zero, Nat.div_one]
  rw [decodeN, ← hfield]
  split
  next h => simp [h]
  next h => simp [h]

theorem decodeQ_eq_ok_iff : decodeQ w = .ok i ↔ ∃ a b c d : Fin 16, pairwiseDifferent a b c d = true ∧ i = .qr a b c d ∧
    w.toNat / 2 ^ 12 % 2 ^ 4 = a.val ∧ w.toNat / 2 ^ 8 % 2 ^ 4 = b.val ∧ w.toNat / 2 ^ 4 % 2 ^ 4 = c.val ∧
    w.toNat % 2 ^ 4 = d.val := by
  simp only [decodeQ]
  constructor
  · intro h
    split at h
    · cases h
      exact ⟨_, _, _, _, by assumption, rfl, indexField_eq_iff.mp rfl, indexField_eq_iff.mp rfl, indexField_eq_iff.mp rfl,
        by simp⟩
    · cases h
  · rintro ⟨a, b, c, d, hd, rfl, ha, hb, hc, hd'⟩
    rw [indexField_eq_iff.mpr ha, indexField_eq_iff.mpr hb, indexField_eq_iff.mpr hc,
      indexField_eq_iff.mpr (by simpa using hd'), if_pos hd]

theorem decodeT_eq_ok_iff {mk : BitVec 8 → Instr} : decodeT mk w = .ok i ↔
    w.toNat / 2 ^ 8 % 2 ^ 8 = 0 ∧ w.toNat % 2 ^ 8 ≤ 92 ∧ mk (w.extractLsb' 0 8) = i := by
  have hfield : w.extractLsb' 8 8 = 0#8 ↔ w.toNat / 2 ^ 8 % 2 ^ 8 = 0 := field_eq_iff w (by decide)
  have htarget : targetInRom (w.extractLsb' 0 8) = true ↔ w.toNat % 2 ^ 8 ≤ 92 := by
    rw [targetInRom_iff, toNat_field, Nat.pow_zero, Nat.div_one]
  simp only [decodeT]
  rw [← hfield, ← htarget]
  split
  next h =>
    split
    next ht => simp [h, ht]
    next ht => simp [h, ht]
  next h => simp [h]

/-! ## Which format an opcode selects -/

theorem opcode_eq_iff {op : Nat} (h : op < 2 ^ 8) : w.extractLsb' 24 8 = BitVec.ofNat 8 op ↔ w.toNat / 2 ^ 24 = op := by
  rw [field_eq_iff w h]
  omega

theorem decodeWord_qr (hop : w.toNat / 2 ^ 24 = 7) (hz : w.toNat / 2 ^ 16 % 2 ^ 8 = 0) : decodeWord w = decodeQ w := by
  simp [decodeWord, (opcode_eq_iff (by decide)).mpr hop, (field_eq_iff w (by decide)).mpr hz]

theorem decodeWord_bdone (hop : w.toNat / 2 ^ 24 = 12) (hz : w.toNat / 2 ^ 16 % 2 ^ 8 = 0) :
    decodeWord w = decodeT .bdone w := by
  simp [decodeWord, (opcode_eq_iff (by decide)).mpr hop, (field_eq_iff w (by decide)).mpr hz]

theorem decodeWord_jmp (hop : w.toNat / 2 ^ 24 = 13) (hz : w.toNat / 2 ^ 16 % 2 ^ 8 = 0) :
    decodeWord w = decodeT .jmp w := by
  simp [decodeWord, (opcode_eq_iff (by decide)).mpr hop, (field_eq_iff w (by decide)).mpr hz]

/-- What decodes has passed the checks of the opcode and of bits 23 to 16. -/
theorem checks_of_decodeWord (h : decodeWord w = .ok i) :
    ¬ (w.extractLsb' 24 8 = 0x00#8 ∨ 0x0E#8 < w.extractLsb' 24 8) ∧ w.extractLsb' 16 8 = 0#8 := by
  unfold decodeWord at h
  by_cases hop : w.extractLsb' 24 8 = 0x00#8 ∨ 0x0E#8 < w.extractLsb' 24 8
  · rw [if_pos hop] at h
    cases h
  · refine ⟨hop, by_contra fun hz => ?_⟩
    rw [if_neg hop, if_pos hz] at h
    cases h

/-- The same, as numbers. -/
theorem opcode_of_decodeWord (h : decodeWord w = .ok i) :
    1 ≤ w.toNat / 2 ^ 24 ∧ w.toNat / 2 ^ 24 ≤ 14 ∧ w.toNat / 2 ^ 16 % 2 ^ 8 = 0 := by
  obtain ⟨hop, hz⟩ := checks_of_decodeWord h
  rw [opcode_eq_iff (by decide), BitVec.lt_def, toNat_field, BitVec.toNat_ofNat] at hop
  rw [field_eq_iff w (by decide)] at hz
  omega

/-- An alternative of format N leaves a zero operand field where it is taken. -/
theorem operandField_of_alternative {p : Prop} [Decidable p] {j : Instr} {o : Except Reserved Instr}
    (h : (if p then decodeN j w else o) = .ok i) (ho : o = .ok i → w.toNat % 2 ^ 16 = 0) : w.toNat % 2 ^ 16 = 0 := by
  by_cases hp : p
  · rw [if_pos hp] at h
    exact (decodeN_eq_ok_iff.mp h).1
  · rw [if_neg hp] at h
    exact ho h

/-- What decodes with an opcode of format N has a zero operand field. -/
theorem operandField_of_decodeWord (h : decodeWord w = .ok i) (h7 : w.toNat / 2 ^ 24 ≠ 7) (h12 : w.toNat / 2 ^ 24 ≠ 12)
    (h13 : w.toNat / 2 ^ 24 ≠ 13) : w.toNat % 2 ^ 16 = 0 := by
  rw [ne_eq, ← opcode_eq_iff (by decide)] at h7 h12 h13
  obtain ⟨hop, hz⟩ := checks_of_decodeWord h
  unfold decodeWord at h
  rw [if_neg hop, if_neg (not_not.mpr hz), if_neg h7, if_neg h12, if_neg h13] at h
  iterate 10 refine operandField_of_alternative h fun h => ?_
  exact (decodeN_eq_ok_iff.mp h).1

/-- What decodes is not reserved, by its format. -/
theorem notReserved_of_decodeWord (h : decodeWord w = .ok i) : NotReserved w := by
  obtain ⟨hlo, hhi, hz⟩ := opcode_of_decodeWord h
  refine ⟨hlo, hhi, hz, ?_⟩
  split
  next h7 =>
    rw [decodeWord_qr h7 hz, decodeQ_eq_ok_iff] at h
    obtain ⟨a, b, c, d, hd, _, ha, hb, hc, hd'⟩ := h
    simp only [ha, hb, hc, hd']
    simpa [Fin.ext_iff] using pairwiseDifferent_iff.mp hd
  next h7 =>
    split
    next hT =>
      obtain h12 | h13 := hT
      · rw [decodeWord_bdone h12 hz, decodeT_eq_ok_iff] at h
        exact ⟨h.1, h.2.1⟩
      · rw [decodeWord_jmp h13 hz, decodeT_eq_ok_iff] at h
        exact ⟨h.1, h.2.1⟩
    next hT =>
      obtain ⟨h12, h13⟩ := not_or.mp hT
      exact operandField_of_decodeWord h h7 h12 h13

/-! ## The words of the encoder -/

/-- An opcode and an operand field are read back from the word they make. -/
theorem fields_opWord {op v : Nat} (hop : op < 2 ^ 8) (hv : v < 2 ^ 16) :
    let n := (BitVec.ofNat 32 (op * 16777216 + v)).toNat
    n / 2 ^ 24 = op ∧ n / 2 ^ 16 % 2 ^ 8 = 0 ∧ n % 2 ^ 16 = v := by
  rw [BitVec.toNat_ofNat]
  omega

/-- A word whose bits 23 to 16 are zero is made of its opcode and its operand field. -/
theorem word_eq_opWord (hz : w.toNat / 2 ^ 16 % 2 ^ 8 = 0) : Code.word w = opWord (w.toNat / 2 ^ 24) (w.toNat % 2 ^ 16) := by
  rw [opWord, Code.word.injEq]
  apply BitVec.eq_of_toNat_eq
  rw [BitVec.toNat_ofNat]
  omega

theorem decode_encode_qr {a b c d : Fin 16} (h : pairwiseDifferent a b c d = true) :
    decode (encode (.qr a b c d)) = .ok (.qr a b c d) := by
  obtain ⟨hop, hz, hv⟩ := fields_opWord (op := 7) (v := a.val * 4096 + b.val * 256 + c.val * 16 + d.val) (by decide) (by omega)
  exact (decodeWord_qr hop hz).trans
    (decodeQ_eq_ok_iff.mpr ⟨a, b, c, d, h, rfl, by omega, by omega, by omega, by omega⟩)

/-- A word with a target in bits 7 to 0 and zeros above decodes by format T to that target. -/
theorem decodeT_of_target {mk : BitVec 8 → Instr} {t : BitVec 8} (ht : t.toNat ≤ 92) (hv : w.toNat % 2 ^ 16 = t.toNat) :
    decodeT mk w = .ok (mk t) := by
  have htarget : w.extractLsb' 0 8 = t := by
    apply BitVec.eq_of_toNat_eq
    rw [toNat_field]
    omega
  exact decodeT_eq_ok_iff.mpr ⟨by omega, by omega, by rw [htarget]⟩

theorem decode_encode_bdone {t : BitVec 8} (h : t.toNat ≤ 92) : decode (encode (.bdone t)) = .ok (.bdone t) := by
  obtain ⟨hop, hz, hv⟩ := fields_opWord (op := 12) (v := t.toNat) (by decide) (by omega)
  exact (decodeWord_bdone hop hz).trans (decodeT_of_target h hv)

theorem decode_encode_jmp {t : BitVec 8} (h : t.toNat ≤ 92) : decode (encode (.jmp t)) = .ok (.jmp t) := by
  obtain ⟨hop, hz, hv⟩ := fields_opWord (op := 13) (v := t.toNat) (by decide) (by omega)
  exact (decodeWord_jmp hop hz).trans (decodeT_of_target h hv)

theorem decode_encode {i : Instr} (h : i.wf = true) : decode (encode i) = .ok i := by
  cases i with
  | qr a b c d => exact decode_encode_qr (wf_qr_iff.mp h)
  | bdone t => exact decode_encode_bdone (wf_bdone_iff.mp h)
  | jmp t => exact decode_encode_jmp (wf_jmp_iff.mp h)
  | _ => rfl

/-- The eleven micro-operations of format N (R70). -/
def formatN : List Instr :=
  [.check, .ldconst, .ldkey, .ldctr, .ldnonce, .save, .feedfwd, .ser, .xorchunk, .ctrinc, .endrun]

/-- Every opcode of format N is that of one of them. -/
theorem exists_formatN {op : Nat} (hlo : 1 ≤ op) (hhi : op ≤ 14) (h7 : op ≠ 7) (h12 : op ≠ 12) (h13 : op ≠ 13) :
    ∃ i ∈ formatN, i.wf = true ∧ encode i = opWord op 0 := by
  have table : ∀ op ∈ List.range 15, op ≠ 0 → op ≠ 7 → op ≠ 12 → op ≠ 13 →
      ∃ i ∈ formatN, i.wf = true ∧ encode i = opWord op 0 := by
    decide
  exact table op (List.mem_range.mpr (by omega)) (by omega) h7 h12 h13

/-- A word that is not reserved is the code of a well-formed micro-operation, made from its fields. -/
theorem exists_encode_of_notReserved (h : NotReserved w) : ∃ i, i.wf = true ∧ encode i = .word w := by
  obtain ⟨hlo, hhi, hz, hfield⟩ := h
  rw [word_eq_opWord hz]
  split at hfield
  next h7 =>
    refine ⟨.qr ⟨w.toNat / 2 ^ 12 % 2 ^ 4, by omega⟩ ⟨w.toNat / 2 ^ 8 % 2 ^ 4, by omega⟩ ⟨w.toNat / 2 ^ 4 % 2 ^ 4, by omega⟩
      ⟨w.toNat % 2 ^ 4, by omega⟩, ?_, ?_⟩
    · simpa [wf_qr_iff, pairwiseDifferent_iff] using hfield
    · rw [encode, h7]
      congr 1
      simp only
      omega
  next h7 =>
    split at hfield
    next hT =>
      obtain ⟨hhigh, ht⟩ := hfield
      have htarget : (w.extractLsb' 0 8).toNat = w.toNat % 2 ^ 16 := by
        rw [toNat_field]
        omega
      obtain h12 | h13 := hT
      · exact ⟨.bdone (w.extractLsb' 0 8), wf_bdone_iff.mpr (by omega), by rw [encode, htarget, h12]⟩
      · exact ⟨.jmp (w.extractLsb' 0 8), wf_jmp_iff.mpr (by omega), by rw [encode, htarget, h13]⟩
    next hT =>
      obtain ⟨h12, h13⟩ := not_or.mp hT
      obtain ⟨i, _, hi⟩ := exists_formatN hlo hhi h7 h12 h13
      exact ⟨i, hfield ▸ hi⟩

/-- A word that is not reserved is the code of what it decodes to. -/
theorem exists_decodeWord_of_notReserved (h : NotReserved w) :
    ∃ i, decodeWord w = .ok i ∧ i.wf = true ∧ encode i = .word w := by
  obtain ⟨i, hi, he⟩ := exists_encode_of_notReserved h
  exact ⟨i, by simpa [he, decode] using decode_encode hi, hi, he⟩

end

/-! ## Reserved words in a run -/

/-- Where the word at `SEQ` of the program is known, the CORE's turn decodes and executes it. -/
theorem coreTurn_of_word {s : State} {w : Word} (hb : s.status = .busy) (hq : s.seq.toNat ≤ 92)
    (hw : (program s)[s.seq.toNat]? = some w) : coreTurn s = runWord w s := by
  rw [coreTurn, if_pos hb, fetch_of_word hq hw, andThen_next]

theorem runWord_of_reserved {w : Word} (s : State) (h : ¬ NotReserved w) : ∃ e, runWord w s = .refused (.reserved e) := by
  cases hd : decodeWord w with
  | ok i => exact absurd (notReserved_of_decodeWord hd) h
  | error e => exact ⟨e, by simp only [runWord, hd]⟩

/-- No word of the ROM is reserved: each decodes, to what the listing of R86 gives its index. -/
theorem notReserved_of_mem_rom {w : Word} (h : w ∈ rom) : NotReserved w := by
  have hm : decodeWord w ∈ romOps.map Except.ok := rom_decodes ▸ List.mem_map_of_mem h
  obtain ⟨i, _, hi⟩ := List.mem_map.mp hm
  exact notReserved_of_decodeWord hi.symm

/-! ## The obligations -/

/-- Settles O2: by the format of the instruction's code. -/
theorem decodeOfEncode : Obligations.DecodeOfEncode := fun _ => decode_encode

/-- Settles O3: what decodes is not reserved, and a word that is not reserved is the code of what it decodes to. -/
theorem encodeOfDecode : Obligations.EncodeOfDecode := by
  refine fun w => ⟨⟨fun ⟨i, hi⟩ => notReserved_of_decodeWord hi, fun h => ?_⟩, fun i hi => ?_⟩
  · obtain ⟨i, hi, _⟩ := exists_decodeWord_of_notReserved h
    exact ⟨i, hi⟩
  · obtain ⟨j, hj, hwf⟩ := exists_decodeWord_of_notReserved (notReserved_of_decodeWord hi)
    obtain rfl : j = i := Except.ok.inj (hj.symm.trans hi)
    exact hwf

/-- Settles O4: a fetched reserved word does not decode, and every word of the ROM does. -/
theorem reservedWordRefused : Obligations.ReservedWordRefused := by
  refine ⟨fun s w hh hb hq hw hr => ?_, fun w => notReserved_of_mem_rom⟩
  rw [step_of_host_nil hh, coreTurn_of_word hb hq hw]
  exact runWord_of_reserved s hr

/-- Settles O1: the decoder evaluated on each word listed. -/
theorem sampleWordsDecode : Obligations.SampleWordsDecode := by
  unfold Obligations.SampleWordsDecode
  decide

/-- Settles O5: the three meanings test the operands before they read the state. -/
theorem illFormedRefused : Obligations.IllFormedRefused := by
  refine ⟨fun a b c d s heq => ?_, fun t s ht => ?_⟩
  · have hd : ¬ pairwiseDifferent a b c d = true := by
      rw [pairwiseDifferent_iff]
      tauto
    exact if_neg hd
  · have hd : ¬ targetInRom t = true := by
      rw [targetInRom_iff]
      omega
    exact ⟨if_neg hd, if_neg hd⟩

/-- Settles O27: a reserved code executes nothing, and `STREAM` while `BUSY` or in `HALT` keeps the state. -/
theorem commandIgnored : Obligations.CommandIgnored := by
  refine ⟨fun c => rfl, fun s c h => ?_⟩
  rw [commandWrite_eq]
  split
  next hc => exact if_pos (h.resolve_left (not_not.mpr hc))
  next => rfl

end Sys2Proof.Machine
end

section
/-! The assembly line of a micro-operation (R84): it is cut at its one space and at its commas, and every numeral reads back. -/

namespace Sys2Proof.Machine

/-- A mnemonic, one space and the operand's text, with no space or comment in either: a line with an operand. -/
theorem assembleLine_operand {m l : List Char} (hm : ' ' ∉ m ∧ ';' ∉ m ∧ m ≠ []) (hl : ' ' ∉ l ∧ ';' ∉ l ∧ l ≠ []) :
    assembleLine (m ++ ' ' :: l) = assembleOperand m l := by
  obtain ⟨hms, hmc, hm0⟩ := hm
  obtain ⟨hls, hlc, hl0⟩ := hl
  have hcomment : (m ++ ' ' :: l).takeWhile (fun c => c ≠ ';') = m ++ ' ' :: l := by
    have : ';' ∉ m ++ ' ' :: l := by simp [hmc, hlc]
    exact List.takeWhile_eq_self_iff.mpr fun c hc => decide_eq_true fun e => this (e ▸ hc)
  have hcut : splitAtChar ' ' (m ++ ' ' :: l) = [m, l] := by
    rw [splitAtChar_append _ _ _ hms, splitAtChar_of_not_mem _ _ hls]
  rw [assembleLine, hcomment, hcut]
  simp [hm0, hl0]

/-- An index's numeral reads back. -/
theorem indexOf_toDigits (a : Fin 16) : indexOf (Nat.toDigits 10 a) = some a := by
  obtain ⟨_, _, _, _, h⟩ := decimal_toDigits (n := a.val) (by omega)
  simp [indexOf, h]

/-- The operand of `QR`: four numerals with commas between them. -/
def indexText (a b c d : Fin 16) : List Char :=
  Nat.toDigits 10 a ++ ',' :: (Nat.toDigits 10 b ++ ',' :: (Nat.toDigits 10 c ++ ',' :: Nat.toDigits 10 d))

theorem lineOf_qr (a b c d : Fin 16) : lineOf (.qr a b c d) = some (['Q', 'R'] ++ ' ' :: indexText a b c d) := by
  simp [lineOf, indexText]

theorem splitAtChar_indexText (a b c d : Fin 16) : splitAtChar ',' (indexText a b c d) =
    [Nat.toDigits 10 a, Nat.toDigits 10 b, Nat.toDigits 10 c, Nat.toDigits 10 d] := by
  have comma (i : Fin 16) : ',' ∉ Nat.toDigits 10 i := (decimal_toDigits (n := i.val) (by omega)).1
  rw [indexText, splitAtChar_append _ _ _ (comma a), splitAtChar_append _ _ _ (comma b), splitAtChar_append _ _ _ (comma c),
    splitAtChar_of_not_mem _ _ (comma d)]

theorem indexText_noSeparator (a b c d : Fin 16) :
    ' ' ∉ indexText a b c d ∧ ';' ∉ indexText a b c d ∧ indexText a b c d ≠ [] := by
  have numeral (i : Fin 16) : ' ' ∉ Nat.toDigits 10 i ∧ ';' ∉ Nat.toDigits 10 i := by
    obtain ⟨_, hspace, hcomment, _, _⟩ := decimal_toDigits (n := i.val) (by omega)
    exact ⟨hspace, hcomment⟩
  simp [indexText, numeral]

theorem assembleLine_qr {a b c d : Fin 16} (h : (Instr.qr a b c d).wf = true) :
    assembleLine (['Q', 'R'] ++ ' ' :: indexText a b c d) = some [.qr a b c d] := by
  rw [assembleLine_operand (by decide) (indexText_noSeparator a b c d)]
  simp [assembleOperand, splitAtChar_indexText, indexOf_toDigits, accepted, h]

/-- A line of a mnemonic and one numeral, the target of a format-T word. -/
theorem assembleLine_target {m : List Char} {t : BitVec 8} (hm : ' ' ∉ m ∧ ';' ∉ m ∧ m ≠ []) (hqr : m ≠ ['Q', 'R'])
    (ht : t.toNat ≤ 92) : assembleLine (m ++ ' ' :: Nat.toDigits 10 t.toNat) =
      if m = ['B', 'D', 'O', 'N', 'E'] then accepted (.bdone t) else if m = ['J', 'M', 'P'] then accepted (.jmp t) else none := by
  obtain ⟨_, hspace, hcomment, hne, hread⟩ := decimal_toDigits (n := t.toNat) (by omega)
  rw [assembleLine_operand hm ⟨hspace, hcomment, hne⟩]
  simp [assembleOperand, hqr, hread, show t.toNat < 256 by omega]

/-! ## The obligation -/

/-- Settles O6: a line without an operand is looked up; one with an operand is cut where it was put together. -/
theorem assembleOfLine : Obligations.AssembleOfLine := by
  intro i l hwf hl
  cases i with
  | stream => cases hl
  | qr a b c d =>
    rw [lineOf_qr] at hl
    cases hl
    exact assembleLine_qr hwf
  | bdone t =>
    cases hl
    exact (assembleLine_target (m := ['B', 'D', 'O', 'N', 'E']) (by decide) (by decide) (wf_bdone_iff.mp hwf)).trans (if_pos hwf)
  | jmp t =>
    cases hl
    exact (assembleLine_target (m := ['J', 'M', 'P']) (by decide) (by decide) (wf_jmp_iff.mp hwf)).trans (if_pos hwf)
  | _ => cases hl; decide

end Sys2Proof.Machine
end

section
/-! The initial state (R90 to R96): each of the four loads by the words of `X` it writes and those it keeps, their run as `init_fn`, and
`init_fn` as a function whose arguments can be read back from its words. -/

namespace Sys2Proof.Machine

/-! ## What a load leaves unchanged -/

/-- A step that writes `X` and `SEQ` keeps every other part of the state. -/
theorem frame_of_x_seq (s : State) (x : Vector (Option Word) 16) (q : BitVec 7) : Frame [.x, .seq] s { s with x := x, seq := q } := by
  refine ⟨inputsUnchanged_of_fields rfl rfl rfl rfl rfl rfl rfl (fun _ => rfl) rfl rfl rfl, fun p hp => ?_⟩
  cases p
  case x | seq => simp at hp
  case out => exact fun _ => rfl
  all_goals rfl

/-! ## The words a load writes -/

/-- Where no index is written twice, the word loaded at an index of the layout is the one at its offset. -/
theorem getElem_loadX_of_mem {f : Nat → Word} {a : Nat} {i : Fin 16} :
    ∀ {l : List (Nat × Fin 16)} {x : Vector (Option Word) 16}, (l.map Prod.snd).Nodup → (a, i) ∈ l → (loadX f l x)[i] = some (f a)
  | p :: l, x, hd, hm => by
    obtain ⟨hp, hd⟩ := List.nodup_cons.mp hd
    rw [show loadX f (p :: l) x = loadX f l (x.set p.2.val (some (f p.1))) from rfl]
    obtain rfl | hm := List.mem_cons.mp hm
    · rw [getElem_loadX_of_not_mem fun q hq e => hp (List.mem_map.mpr ⟨q, hq, e⟩)]
      simp
    · exact getElem_loadX_of_mem hd hm

section
variable (f : Nat → Word) (x : Vector (Option Word) 16)

/-- Word `j` of `KEY` goes to `X[4 + j]` (R91). -/
theorem getElem_loadX_keyLayout : ∀ j (hj : j < 8), (loadX f keyLayout x)[4 + j] = some (f (4 * j)) := by
  have placed : ∀ j (hj : j < 8), (4 * j, (⟨4 + j, by omega⟩ : Fin 16)) ∈ keyLayout := by decide
  exact fun j hj => getElem_loadX_of_mem (by decide) (placed j hj)

/-- Word `j` of `NONCE` goes to `X[13 + j]` (R93). -/
theorem getElem_loadX_nonceLayout : ∀ j (hj : j < 3), (loadX f nonceLayout x)[13 + j] = some (f (4 * j)) := by
  have placed : ∀ j (hj : j < 3), (4 * j, (⟨13 + j, by omega⟩ : Fin 16)) ∈ nonceLayout := by decide
  exact fun j hj => getElem_loadX_of_mem (by decide) (placed j hj)

end

/-- The four constant words are written to `X[0..4]` only. -/
theorem getElem_constX_of_le {x : Vector (Option Word) 16} {i : Fin 16} (hi : 4 ≤ i.val) : (constX x)[i] = x[i] := by
  simp only [constX, Fin.getElem_fin]
  repeat rw [Vector.getElem_set_ne _ _ (by omega)]

theorem exec_ldconst (s : State) : exec .ldconst s = .next (advance { s with x := constX s.x }) := rfl

theorem exec_ldctr_of_ctr {s : State} {c : Word} (hc : s.ctr = some c) : exec .ldctr s = .next (advance (writeX 12 c s)) := by
  rw [exec, execLdctr, hc, valueOf_some, andThen_next]

/-! ## The arguments of `init_fn` from its words -/

/-- A word determines its four bytes, its digits in base 256. -/
theorem le32_inj {b0 b1 b2 b3 b0' b1' b2' b3' : Byte} (h : le32 b0 b1 b2 b3 = le32 b0' b1' b2' b3') :
    b0 = b0' ∧ b1 = b1' ∧ b2 = b2' ∧ b3 = b3' := by
  have digits := congrArg BitVec.toNat h
  simp only [toNat_le32] at digits
  simp only [← BitVec.toNat_inj]
  omega

/-- A sequence of whole words is determined by its little-endian words. -/
theorem ext_of_wordLeAt {m : Nat} {b b' : Vector Byte (4 * m)}
    (h : ∀ j (hj : j < m), wordLeAt b (4 * j) (by omega) = wordLeAt b' (4 * j) (by omega)) : b = b' := by
  ext1 i hi
  obtain ⟨h0, h1, h2, h3⟩ := le32_inj (h (i / 4) (by omega))
  obtain e | e | e | e : i = 4 * (i / 4) ∨ i = 4 * (i / 4) + 1 ∨ i = 4 * (i / 4) + 2 ∨ i = 4 * (i / 4) + 3 := by omega
  · simpa only [← e] using h0
  · simpa only [← e] using h1
  · simpa only [← e] using h2
  · simpa only [← e] using h3

section
variable (key : Vector Byte 32) (nonce : Vector Byte 12) (c : Word)

theorem getElem_initFn_key {j : Nat} (hj : j < 8) : (initFn key nonce c)[4 + j] = wordLeAt key (4 * j) (by omega) := by
  simp [initFn, show 4 + j < 12 by omega]

theorem getElem_initFn_ctr : (initFn key nonce c)[12] = c := by
  simp [initFn]

theorem getElem_initFn_nonce {j : Nat} (hj : j < 3) : (initFn key nonce c)[13 + j] = wordLeAt nonce (4 * j) (by omega) := by
  simp [initFn, show ¬ 13 + j < 4 by omega, show ¬ 13 + j < 12 by omega, show 13 + j ≠ 12 by omega]

end

/-! ## The obligations -/

/-- Settles O13: the run of the four loads from the contents of `X` at index 2. -/
theorem initComputesInitFn : Obligations.InitComputesInitFn := by
  intro s c hu hb hq hc hk hn
  have start : atIndex s 2 s.x = s := by rw [atIndex, ← hq]
  have loads : run 4 (atIndex s 2 s.x) = .next (atIndex s 6 ((initFn (keyOf s) (nonceOf s) c).map some)) := by
    rw [run_init s.x 0 hu hb hc hk hn, run_zero]
  rw [start] at loads
  exact ⟨_, loads, rfl, rfl, frame_of_x_seq s _ _⟩

/-- Settles O14: the key is read back from words 4 to 11, the counter from word 12 and the nonce from words 13 to 15. -/
theorem initFnInjective : Obligations.InitFnInjective := by
  intro k k' n n' c c' h
  refine ⟨ext_of_wordLeAt (m := 8) fun j hj => ?_, ext_of_wordLeAt (m := 3) fun j hj => ?_, ?_⟩
  · rw [← getElem_initFn_key k n c hj, ← getElem_initFn_key k' n' c' hj, h]
  · rw [← getElem_initFn_nonce k n c hj, ← getElem_initFn_nonce k' n' c' hj, h]
  · rw [← getElem_initFn_ctr k n c, ← getElem_initFn_ctr k' n' c', h]

/-- Settles O9: by the four words of `constX` and those it keeps. -/
theorem ldconstLoadsConstants : Obligations.LdconstLoadsConstants := by
  refine ⟨rfl, fun s => ⟨_, exec_ldconst s, ?_, ?_, ?_, ?_, fun _ => getElem_constX_of_le, rfl, frame_of_x_seq s _ _⟩⟩
  all_goals simp [constX, constWord]

/-- Settles O10: the words of `KEY` go to the indices of its layout, and the other words of `X` are kept. -/
theorem ldkeyLoadsKeyWords : Obligations.LdkeyLoadsKeyWords := by
  have kept : ∀ i : Fin 16, i.val < 4 ∨ 12 ≤ i.val → ∀ p ∈ keyLayout, p.2 ≠ i := by decide
  exact ⟨rfl, fun s h => ⟨_, exec_ldkey_of_len h, getElem_loadX_keyLayout (fun a => wordAt .key a s) s.x,
    fun i hi => getElem_loadX_of_not_mem (kept i hi), rfl, frame_of_x_seq s _ _⟩⟩

/-- Settles O11: a held counter is written to `X[12]` as it stands. -/
theorem ldctrLoadsCounter : Obligations.LdctrLoadsCounter :=
  ⟨rfl, fun s _ hc => ⟨_, exec_ldctr_of_ctr hc, by simp, fun i hi => by simp [Ne.symm hi], rfl, frame_of_x_seq s _ _⟩⟩

/-- Settles O12: the words of `NONCE` go to the indices of its layout, and the other words of `X` are kept. -/
theorem ldnonceLoadsNonceWords : Obligations.LdnonceLoadsNonceWords := by
  have kept : ∀ i : Fin 16, i.val < 13 → ∀ p ∈ nonceLayout, p.2 ≠ i := by decide
  exact ⟨rfl, fun s h => ⟨_, exec_ldnonce_of_len h, getElem_loadX_nonceLayout (fun a => wordAt .nonce a s) s.x,
    fun i hi => getElem_loadX_of_not_mem (kept i hi), rfl, frame_of_x_seq s _ _⟩⟩

end Sys2Proof.Machine
end

section
/-! The quarter-round (R103 to R108). `setWords` puts four words at four indices, and each of the four lines of R103 is one map on the
quadruple of those words (`halfTurn`), with the two pairs of indices taking turns; so `qr_fn` is four such maps in a row. -/

namespace Sys2Proof.Machine

/-! ## Four words at four indices -/

section
variable {α β : Type} {a b c d i : Fin 16}

/-- The words of the quadruple `q` at the indices `a`, `b`, `c`, `d` of a sequence of sixteen. -/
def setWords (a b c d : Fin 16) (q : α × α × α × α) (v : Vector α 16) : Vector α 16 :=
  (((v.set a.val q.1).set b.val q.2.1).set c.val q.2.2.1).set d.val q.2.2.2

/-- `f` on each word of a quadruple. -/
def mapWords (f : α → β) (q : α × α × α × α) : β × β × β × β := (f q.1, f q.2.1, f q.2.2.1, f q.2.2.2)

theorem getElem_setWords (q : α × α × α × α) (v : Vector α 16) : (setWords a b c d q v)[i] =
    if d = i then q.2.2.2 else if c = i then q.2.2.1 else if b = i then q.2.1 else if a = i then q.1 else v[i] := by
  simp only [setWords, Fin.getElem_fin, Vector.getElem_set, Fin.val_inj]

theorem getElem_setWords_of_not_mem (hi : i ∉ [a, b, c, d]) (q : α × α × α × α) (v : Vector α 16) :
    (setWords a b c d q v)[i] = v[i] := by
  have ⟨ha, hb, hc, hd⟩ : i ≠ a ∧ i ≠ b ∧ i ≠ c ∧ i ≠ d := by simpa using hi
  rw [getElem_setWords, if_neg hd.symm, if_neg hc.symm, if_neg hb.symm, if_neg ha.symm]

/-- The word at one of the four indices comes from the quadruple alone, whatever sequence it is put in. -/
theorem getElem_setWords_mapWords (hi : i ∈ [a, b, c, d]) (f : α → β) (q : α × α × α × α) (v : Vector α 16) (u : Vector β 16) :
    (setWords a b c d (mapWords f q) u)[i] = f (setWords a b c d q v)[i] := by
  have mem : a = i ∨ b = i ∨ c = i ∨ d = i := by simpa [eq_comm] using hi
  rw [getElem_setWords, getElem_setWords]
  split_ifs
  any_goals rfl
  · exact absurd mem (by simp [*])

theorem getElem_setWords_of_mem (hi : i ∈ [a, b, c, d]) (q : α × α × α × α) (v u : Vector α 16) :
    (setWords a b c d q u)[i] = (setWords a b c d q v)[i] :=
  getElem_setWords_mapWords hi id q v u

theorem setWords_self (v : Vector α 16) : setWords a b c d (v[a], v[b], v[c], v[d]) v = v := by
  simp [setWords]

/-- Quadruples put at groups of indices with no index in common can be put in either order. -/
theorem setWords_comm {a' b' c' d' : Fin 16} (h : ∀ i ∈ [a, b, c, d], i ∉ [a', b', c', d']) (q q' : α × α × α × α)
    (v : Vector α 16) : setWords a' b' c' d' q' (setWords a b c d q v) = setWords a b c d q (setWords a' b' c' d' q' v) := by
  ext1 j hj
  obtain ⟨i, rfl⟩ : ∃ i : Fin 16, i.val = j := ⟨⟨j, hj⟩, rfl⟩
  simp only [← Fin.getElem_fin]
  by_cases hi : i ∈ [a, b, c, d]
  · rw [getElem_setWords_of_not_mem (h i hi)]
    exact getElem_setWords_of_mem hi ..
  · rw [getElem_setWords_of_not_mem hi]
    by_cases hi' : i ∈ [a', b', c', d']
    · exact getElem_setWords_of_mem hi' ..
    · rw [getElem_setWords_of_not_mem hi', getElem_setWords_of_not_mem hi', getElem_setWords_of_not_mem hi]

end

/-! ## The lines of the quarter-round -/

/-- One line of R103 on the words `(a, b, c, d)`, `a += b; d ^= a; d = rotl(d, n)`, giving them in the order `(c, d, a, b)` in which the
next line takes them. -/
def halfTurn (n : Nat) (q : Word × Word × Word × Word) : Word × Word × Word × Word :=
  (q.2.2.1, rotl32 (xor32 q.2.2.2 (add32 q.1 q.2.1)) n, add32 q.1 q.2.1, q.2.1)

/-- R104 as the four lines of R103. -/
theorem qrFn_eq_halfTurns (q : Word × Word × Word × Word) :
    qrFn q.1 q.2.1 q.2.2.1 q.2.2.2 = halfTurn 7 (halfTurn 8 (halfTurn 12 (halfTurn 16 q))) := rfl

theorem qrAt_eq_setWords (v : Vector Word 16) (a b c d : Fin 16) :
    qrAt v a b c d = setWords a b c d (qrFn v[a] v[b] v[c] v[d]) v := rfl

/-- One line of R103 in place, on four words at four different indices: each read finds the quadruple's word or the new sum, and of the
writes at one index the last one stays. -/
theorem line_setWords {a b c d : Fin 16} (h : pairwiseDifferent a b c d = true) (n : Nat) (q : Word × Word × Word × Word)
    (v : Vector Word 16) : rotInto d n (xorInto d a (addInto a b (setWords a b c d q v))) = setWords c d a b (halfTurn n q) v := by
  obtain ⟨hab, hac, had, hbc, hbd, hcd⟩ := pairwiseDifferent_iff.mp h
  ext1 j hj
  obtain ⟨i, rfl⟩ : ∃ i : Fin 16, i.val = j := ⟨⟨j, hj⟩, rfl⟩
  simp only [rotInto, xorInto, addInto, halfTurn, setWords, Fin.getElem_fin, Vector.getElem_set, Fin.val_inj, if_true, if_false,
    had, hab.symm, hac.symm, had.symm, hbc.symm, hbd.symm]
  by_cases hd : d = i
  · simp [← hd, had, hbd]
  by_cases hb : b = i
  · simp [← hb, hab, hbc.symm, hbd.symm]
  by_cases ha : a = i
  · simp [ha, hb, hd]
  · simp [ha, hb, hd]

/-- The twelve assignments are the four lines, the second and the fourth with the two pairs of indices exchanged. -/
theorem qrInPlace_setWords {a b c d : Fin 16} (h : pairwiseDifferent a b c d = true) (q : Word × Word × Word × Word)
    (v : Vector Word 16) : qrInPlace a b c d (setWords a b c d q v) = setWords a b c d (qrFn q.1 q.2.1 q.2.2.1 q.2.2.2) v := by
  have h' : pairwiseDifferent c d a b = true := by
    rw [pairwiseDifferent_iff] at h ⊢
    tauto
  rw [qrInPlace, line_setWords h, line_setWords h', line_setWords h, line_setWords h', qrFn_eq_halfTurns]

theorem qrInPlace_eq_qrAt {a b c d : Fin 16} (h : pairwiseDifferent a b c d = true) (v : Vector Word 16) :
    qrInPlace a b c d v = qrAt v a b c d := by
  have inPlace := qrInPlace_setWords h (v[a], v[b], v[c], v[d]) v
  rwa [setWords_self] at inPlace

/-- Neither of two quarter-rounds on groups with no index in common changes what the other reads, and what they write can be written in
either order (R108). -/
theorem qrAt_comm {a b c d a' b' c' d' : Fin 16} (h : ∀ i ∈ [a, b, c, d], i ∉ [a', b', c', d']) (v : Vector Word 16) :
    qrAt (qrAt v a b c d) a' b' c' d' = qrAt (qrAt v a' b' c' d') a b c d := by
  have read : ∀ i ∈ [a, b, c, d], ∀ q, (setWords a' b' c' d' q v)[i] = v[i] :=
    fun i hi q => getElem_setWords_of_not_mem (h i hi) q v
  have read' : ∀ i ∈ [a', b', c', d'], ∀ q, (setWords a b c d q v)[i] = v[i] :=
    fun i hi q => getElem_setWords_of_not_mem (fun hi' => h i hi' hi) q v
  simp only [List.forall_mem_cons] at read read'
  simp only [qrAt_eq_setWords, read, read', setWords_comm h]

/-! ## Undoing a line -/

/-- Every bit of a word is read back from its rotation. -/
theorem rotl32_injective {n : Nat} (hn : n < 32) : Function.Injective fun v => rotl32 v n := by
  intro v w h
  apply BitVec.eq_of_getLsbD_eq
  intro i hi
  rw [← getLsbD_rotl32_add_mod v hn hi, ← getLsbD_rotl32_add_mod w hn hi, show rotl32 v n = rotl32 w n from h]

/-- The sum and the second word give the first; the rotation and the sum give the fourth (R107). -/
theorem halfTurn_injective {n : Nat} (hn : n < 32) : Function.Injective (halfTurn n) := by
  rintro ⟨a, b, c, d⟩ ⟨a', b', c', d'⟩ h
  simp only [halfTurn, Prod.mk.injEq] at h
  obtain ⟨rfl, hrot, hsum, rfl⟩ := h
  obtain rfl : a = a' := (BitVec.add_left_inj b).mp hsum
  obtain rfl : d = d' := BitVec.xor_left_inj _ |>.mp (rotl32_injective hn hrot)
  rfl

/-! ## `QR` on held words -/

/-- A quarter-round whose four words are held. -/
theorem exec_qr_of_held {a b c d : Fin 16} {s : State} {v : Vector Word 16} (h : pairwiseDifferent a b c d = true)
    (hx : ∀ i ∈ [a, b, c, d], s.x[i] = some v[i]) : exec (.qr a b c d) s =
      .next (advance { s with x := setWords a b c d (mapWords some (qrFn v[a] v[b] v[c] v[d])) s.x }) := by
  simp only [exec, execQr, if_pos h, readX_of_some (hx a (by simp)), readX_of_some (hx b (by simp)),
    readX_of_some (hx c (by simp)), readX_of_some (hx d (by simp)), andThen_next]
  rfl

/-! ## The rounds of the schedule -/

/-- The indices of a quarter-round. -/
def qrGroup : Instr → List (Fin 16)
  | .qr a b c d => [a, b, c, d]
  | _ => []

theorem wf_of_mem_rounds : ∀ round ∈ [colRoundOps, diagRoundOps], ∀ q ∈ round, q.wf = true := by decide

/-- The groups of indices of a round are pairwise disjoint (R121, R122). -/
theorem pairwise_disjoint_rounds : ∀ round ∈ [colRoundOps, diagRoundOps],
    round.Pairwise fun q q' => ∀ i ∈ qrGroup q, i ∉ qrGroup q' := by decide

/-! ## The obligations -/

/-- Settles O18: four lines, each by its map on the quadruple. -/
theorem twelveAssignmentsAreQrFn : Obligations.TwelveAssignmentsAreQrFn :=
  fun _ _ _ _ v h => qrInPlace_eq_qrAt h v

/-- Settles O17: the words of `qr_fn` are put at the four indices, and by O18 these are what the twelve assignments leave there. -/
theorem qrRunsTwelveAssignments : Obligations.QrRunsTwelveAssignments := by
  intro a b c d s v h hx
  refine ⟨?_, _, exec_qr_of_held h hx, fun i hi => ?_, fun i hi => getElem_setWords_of_not_mem hi _ _, rfl, frame_of_x_seq s _ _⟩
  · simp only [encode, opWord, Nat.add_assoc, Nat.reduceMul]
  · rw [qrInPlace_eq_qrAt h, qrAt_eq_setWords]
    exact getElem_setWords_mapWords hi some _ v s.x

/-- Settles O19: each of the four lines is injective, so `qr_fn` is, and the quadruples are finitely many. -/
theorem qrFnBijective : Obligations.QrFnBijective := by
  apply Function.Injective.bijective_of_finite
  simp only [qrFn_eq_halfTurns]
  exact (halfTurn_injective (by decide)).comp <| (halfTurn_injective (by decide)).comp <|
    (halfTurn_injective (by decide)).comp (halfTurn_injective (by decide))

/-- Settles O20: the eight listed tuples by their values, and commutation by `qrAt_comm`. -/
theorem disjointQuarterRoundsCommute : Obligations.DisjointQuarterRoundsCommute := by
  refine ⟨rfl, rfl, fun round hr => ?_, fun a b c d a' b' c' d' v _ _ hdisj => ?_⟩
  · refine ⟨fun _ _ _ _ hq => wf_qr_iff.mp (wf_of_mem_rounds round hr _ hq), (pairwise_disjoint_rounds round hr).imp ?_⟩
    rintro _ _ h _ _ _ _ _ _ _ _ rfl rfl
    exact h
  · exact qrAt_comm hdisj v

end Sys2Proof.Machine
end

section
/-! The block transformation (R120 to R130): `SAVE` and `FEEDFWD` as copy and sum of all sixteen words, and the run of `ROM[2..89]` as
`block_fn`. -/

namespace Sys2Proof.Machine

/-! ## What the block transformation leaves unchanged -/

/-- A step that writes `SEQ` and those of `X`, `S` and `KS` that `w` names keeps every part of the state that `w` does not name. -/
theorem frame_of_block_parts {w : List Part} (s : State) {x sv : Vector (Option Word) 16} {ks : Vector (Option Byte) 64}
    (q : BitVec 7) (hq : .seq ∈ w) (hx : .x ∉ w → x = s.x) (hsv : .sv ∉ w → sv = s.sv) (hks : .ks ∉ w → ks = s.ks) :
    Frame w s { s with x := x, sv := sv, ks := ks, seq := q } := by
  refine ⟨inputsUnchanged_of_fields rfl rfl rfl rfl rfl rfl rfl (fun _ => rfl) rfl rfl rfl, fun p hp => ?_⟩
  cases p
  case x => exact hx hp
  case sv => exact hsv hp
  case ks => exact hks hp
  case seq => exact absurd hq hp
  case out => exact fun _ => rfl
  all_goals rfl

/-! ## Held words -/

/-- A file of locations that holds the values of `w` one by one holds `w`. -/
theorem eq_map_some_of_getElem {α : Type} {n : Nat} {v : Vector (Option α) n} {w : Vector α n} (h : ∀ i : Fin n, v[i] = some w[i]) :
    v = w.map some := by
  ext1 i hi
  simpa using h ⟨i, hi⟩

theorem exec_save_of_held {s : State} (h : ∀ i : Fin 16, s.x[i].isSome = true) :
    exec .save s = .next (advance { s with sv := s.x }) := by
  obtain ⟨v, hv⟩ := exists_values h
  rw [exec, execSave_of_words hv, hv]

theorem getElem_addWords (v w : Vector Word 16) (i : Fin 16) : (addWords v w)[i] = add32 v[i] w[i] := by
  simp [addWords]

/-! ## `SAVE` in the ROM -/

/-- The word of `SAVE` stands in the ROM at index 6 only. -/
theorem index_of_save_in_rom {k : Nat} (h : rom[k]? = some 0x06000000#32) : k = 6 := by
  have only : ∀ k : Fin 93, rom[k.val]? = some 0x06000000#32 → k.val = 6 := by decide
  obtain ⟨hk, -⟩ := List.getElem?_eq_some_iff.mp h
  exact only ⟨k, hk⟩ h

/-! ## The obligations -/

/-- Settles O23: the run of the eighty-seven micro-operations from the contents of `X` at index 2. -/
theorem blockComputesBlockFn : Obligations.BlockComputesBlockFn := by
  intro s c hu hb hq hc hk hn
  have start : atIndex s 2 s.x = s := by rw [atIndex, ← hq]
  have block : run 87 (atIndex s 2 s.x) = .next (afterBlock s c) := by rw [run_block s.x 0 hu hb hc hk hn, run_zero]
  rw [start] at block
  exact ⟨_, block, rfl, rfl, frame_of_block_parts s _ (by simp) (by simp) (by simp) (by simp)⟩

/-- Settles O21: `S` becomes `X` as it stands, and the words of the ROM by their values. -/
theorem saveCopiesState : Obligations.SaveCopiesState :=
  ⟨rfl, by decide, fun _ => index_of_save_in_rom, fun s h => ⟨_, exec_save_of_held h, fun _ => rfl, rfl,
    frame_of_block_parts s _ (by simp) (fun _ => rfl) (by simp) (fun _ => rfl)⟩⟩

/-- Settles O22: the sums of `addWords`, word by word. -/
theorem feedfwdAddsCopy : Obligations.FeedfwdAddsCopy := by
  refine ⟨rfl, fun s v w hx hs =>
    ⟨_, execFeedfwd_of_words (eq_map_some_of_getElem hx) (eq_map_some_of_getElem hs), fun i => ?_, rfl, frame_of_x_seq s _ _⟩⟩
  rw [← getElem_addWords]
  exact getElem_of_map_some rfl i

end Sys2Proof.Machine
end

section
/-! The serializer (R140, R141): each byte of `ser_fn` is a byte of one word, and the little-endian words of its bytes give the
sequence of words back. -/

namespace Sys2Proof.Machine

/-! ## `ser_fn` and its inverse -/

section
variable (f : Vector Word 16)

theorem getElem_serFn {i k : Nat} (hi : i < 16) (hk : k < 4) : (serFn f)[4 * i + k] = byteOf k f[i] := by
  have word : (4 * i + k) / 4 = i := by omega
  have byte : (4 * i + k) % 4 = k := by omega
  simp [serFn, word, byte]

/-- The word of the four bytes that `ser_fn` takes from one word is that word, by the identity of R11. -/
theorem wordLeAt_serFn {i : Nat} (hi : i < 16) : wordLeAt (serFn f) (4 * i) (by omega) = f[i] := by
  have byte0 : (serFn f)[4 * i] = byteOf 0 f[i] := getElem_serFn f hi (k := 0) (by decide)
  rw [wordLeAt, byte0, getElem_serFn f hi (by decide), getElem_serFn f hi (by decide), getElem_serFn f hi (by decide), le32_byteOf]

end

/-- The sixteen little-endian words of sixty-four bytes. -/
def wordsOfBytes (b : Vector Byte 64) : Vector Word 16 := Vector.ofFn fun i => wordLeAt b (4 * i.val) (by omega)

theorem getElem_wordsOfBytes (b : Vector Byte 64) {i : Nat} (hi : i < 16) :
    (wordsOfBytes b)[i] = wordLeAt b (4 * i) (by omega) := by
  simp [wordsOfBytes]

theorem wordsOfBytes_serFn (f : Vector Word 16) : wordsOfBytes (serFn f) = f := by
  ext1 i hi
  rw [getElem_wordsOfBytes _ hi, wordLeAt_serFn f hi]

/-- Both sequences of bytes have the same little-endian words. -/
theorem serFn_wordsOfBytes (b : Vector Byte 64) : serFn (wordsOfBytes b) = b :=
  ext_of_wordLeAt (m := 16) fun _ hi => (wordLeAt_serFn _ hi).trans (getElem_wordsOfBytes b hi)

/-! ## The obligations -/

/-- Settles O25: each byte by its value, each word by `wordLeAt_serFn`, and `wordsOfBytes` as the inverse on both sides. -/
theorem serFnBijective : Obligations.SerFnBijective := by
  refine ⟨fun f i k hi hk => ?_, fun f i hi => (wordLeAt_serFn f hi).symm, ?_⟩
  · rw [getElem_serFn f hi hk, toNat_byteOf]
  · exact Function.bijective_iff_has_inverse.mpr ⟨wordsOfBytes, wordsOfBytes_serFn, serFn_wordsOfBytes⟩

/-- Settles O24: the bytes of `ser_fn` on the held words. -/
theorem serSerializesState : Obligations.SerSerializesState := by
  refine ⟨rfl, fun s v hx => ⟨_, execSer_of_words (eq_map_some_of_getElem hx), fun i k hi hk => ?_, rfl,
    frame_of_block_parts s _ (by simp) (fun _ => rfl) (fun _ => rfl) (by simp)⟩⟩
  rw [← getElem_serFn v hi hk]
  exact getElem_of_map_some rfl ⟨4 * i + k, by omega⟩

end Sys2Proof.Machine
end

section
/-! What the driver's instructions do (R150 to R157): each of `STREAM`, `CHECK`, `BDONE`, `XORCHUNK`, `CTRINC`, `JMP` and `END` by the one
update it makes, and the parts of the state that update leaves unchanged. -/

namespace Sys2Proof.Machine

/-! ## What an instruction leaves unchanged -/

section
variable {w : List Part} {i : Instr} {s t : State}

/-- An instruction keeps all but the parts in `w` when every part is in `w` or unchanged: of its inputs it writes none. -/
theorem frame_of_exec (h : exec i s = .next t) (hp : ∀ p, p ∈ w ∨ Unchanged s t p) : Frame w s t :=
  ⟨inputsUnchanged_of_exec h, fun p hn => (hp p).resolve_left hn⟩

/-- Of an instruction other than `XORCHUNK` the bytes of `OUT` need no argument. -/
theorem frame_of_exec_keeping_out (h : exec i s = .next t) (hi : i ≠ .xorchunk) (hp : ∀ p, p ≠ .out → p ∈ w ∨ Unchanged s t p) :
    Frame w s t :=
  frame_of_exec h fun p => by
    by_cases ho : p = .out
    · exact .inr (ho ▸ byteAt_out_of_exec h hi)
    · exact hp p ho

end

/-- A step that sets `SEQ` alone keeps every other part of the state. -/
theorem frame_of_seq (s : State) (q : BitVec 7) : Frame [.seq] s { s with seq := q } :=
  frame_of_block_parts s q (by simp) (fun _ => rfl) (fun _ => rfl) (fun _ => rfl)

/-! ## The instructions by their updates -/

/-- `STREAM` in `IDLE` or `DONE` starts a run when the five operand registers are held and the mapping is one of the spec's (R150). -/
theorem exec_stream_of_held {s : State} {c : Word} (hs : s.status = .idle ∨ s.status = .done) (hc : s.ctr0 = some c)
    (hl : ∀ sp, (spaceLen sp s).isSome = true) (hp : s.placement ≠ .shifted) : exec .stream s = .next (startRun c s) := by
  obtain ⟨_, _, _, _, hlens⟩ := withLens_of_held (fun _ _ _ _ => andThen (placed s) fun _ => .next (startRun c s)) hl
  rw [exec_stream_eq hs, hc, valueOf_some, andThen_next, hlens, placed_of_ne hp, andThen_next]

theorem frame_startRun {s : State} {c : Word} (h : exec .stream s = .next (startRun c s)) :
    Frame [.ctr, .pos, .seq, .fault, .status] s (startRun c s) :=
  frame_of_exec_keeping_out h (by simp) fun p => by cases p <;> simp [Unchanged]

/-- Where the word at `SEQ` decodes, the CORE's turn executes what it decodes to. -/
theorem coreTurn_of_decoded {s : State} {w : Word} {i : Instr} (hb : s.status = .busy) (hq : s.seq.toNat ≤ 92)
    (hw : (program s)[s.seq.toNat]? = some w) (hd : decodeWord w = .ok i) : coreTurn s = exec i s := by
  simp only [coreTurn_of_word hb hq hw, runWord, hd]

theorem program_of_rom {s : State} (h : s.testProgram = none) : program s = rom := by rw [program, h, Option.getD_none]

/-- An index of the ROM that holds a word is at most 92. -/
theorem le_of_getElem?_rom {k : Nat} {w : Word} (h : rom[k]? = some w) : k ≤ 92 := by
  have length : rom.length = 93 := by decide
  obtain ⟨hk, -⟩ := List.getElem?_eq_some_iff.mp h
  omega

/-- The three causes have one bit each, so that each bit of their union tells one condition. -/
theorem getLsbD_union_of_causes (P Q R : Prop) [Decidable P] [Decidable Q] [Decidable R] :
    let c : BitVec 3 := (if P then 1#3 else 0#3) ||| (if Q then 2#3 else 0#3) ||| (if R then 4#3 else 0#3)
    c.getLsbD 0 = decide P ∧ c.getLsbD 1 = decide Q ∧ c.getLsbD 2 = decide R := by
  by_cases hP : P <;> by_cases hQ : Q <;> by_cases hR : R <;> simp [hP, hQ, hR]

/-- Each bit of the causes is the one condition it records (R28, R152). -/
theorem getLsbD_violationCauses (k n i o : Nat) :
    (violationCauses k n i o).getLsbD 0 = decide (k ≠ 32) ∧ (violationCauses k n i o).getLsbD 1 = decide (n ≠ 12) ∧
      (violationCauses k n i o).getLsbD 2 = decide (i ≠ o) :=
  getLsbD_union_of_causes (k ≠ 32) (n ≠ 12) (i ≠ o)

theorem frame_raiseViolation {s : State} {c : BitVec 3} (h : exec .check s = .next (raiseViolation c s)) :
    Frame [.x, .sv, .ks, .ctr, .pos, .status, .fault] s (raiseViolation c s) :=
  frame_of_exec_keeping_out h (by simp) fun p => by cases p <;> simp [Unchanged]

theorem frame_afterChunk {s : State} {p : Nat} {inp out : Memory} (h : exec .xorchunk s = .next (afterChunk s p inp out)) :
    Frame [.out, .pos, .seq] s (afterChunk s p inp out) :=
  frame_of_exec h fun p => by cases p <;> simp [Unchanged, afterChunk]

/-- The byte a chunk writes at an offset, where the keystream byte of that offset is known. -/
theorem XorBytesDone.byte {p m : Nat} {s t : State} (h : XorBytesDone p (chunkOffsets m) s t) {k : Fin 64} (hk : k.val < m) {z : Byte}
    (hz : s.ks[k] = some z) : byteAt .out (p + k.val) t = byteAt .inp (p + k.val) s ^^^ z := by
  obtain ⟨z', hz', hbyte⟩ := h.written (chunkOffsets_nodup m) k (mem_chunkOffsets.mpr hk)
  obtain rfl : z = z' := Option.some.inj (hz.symm.trans hz')
  exact hbyte

theorem exec_ctrinc_of_ctr {s : State} {c : Word} (hc : s.ctr = some c) :
    exec .ctrinc s = .next (advance { s with ctr := some (add32 c 1#32) }) := by
  rw [exec, execCtrinc, hc, valueOf_some, andThen_next]

/-! ## The obligations -/

/-- Settles O31: the chunk's bytes by `XorBytesDone`, which holds of what `XORCHUNK` leaves. -/
theorem xorchunkWritesChunk : Obligations.XorchunkWritesChunk := by
  refine ⟨rfl, by decide, fun s p n ks hp hn ho hks hpl => ?_⟩
  obtain ⟨inp, out, hx, hd⟩ := exec_xorchunk_of_held hp hn ho (fun k hk => by simp [hks k hk]) hpl
  exact ⟨_, hx, fun k hk => hd.byte hk (hks k hk), fun _ => hd.outside, rfl, rfl, frame_afterChunk hx⟩

/-- Settles O7: with no host move, or a `pass`, it is the CORE's turn; a write of a code is a command write. -/
theorem stepRunsDecodedInstruction : Obligations.StepRunsDecodedInstruction := by
  refine ⟨fun s w i hh hb hq hw hd => ?_, fun s rest w i hh hb hq hw hd => ?_, fun s rest c hh => ?_, fun s => program_of_rom⟩
  · rw [step_of_host_nil hh, coreTurn_of_decoded hb hq hw hd]
  · rw [step_of_host_cons hh, hostTurn, coreTurn_of_decoded (s := { s with host := rest }) hb hq hw hd]
  · have hs : step s = commandWrite c { s with host := rest } := by rw [step_of_host_cons hh, hostTurn]
    exact ⟨hs, fun i hi => by simp only [hs, commandWrite, hi]⟩

/-- Settles O26: the start by `exec_stream_of_held`; a word of the ROM stands at an index that `SEQ` may hold. -/
theorem streamStartsRun : Obligations.StreamStartsRun := by
  refine ⟨rfl, fun s c hs hc hl hp => ?_, fun s hs => if_pos hs, fun s w i hb hp hw hd => ?_⟩
  · have hx := exec_stream_of_held hs hc hl hp
    exact ⟨_, hx, rfl, rfl, rfl, rfl, rfl, frame_startRun hx⟩
  · exact coreTurn_of_decoded hb (le_of_getElem?_rom hw) (by rwa [program_of_rom hp]) hd

/-- Settles O29: `CHECK` finds no cause exactly when the lengths pass, and else raises the causes it finds. -/
theorem checkTakesViolation : Obligations.CheckTakesViolation := by
  refine ⟨rfl, by decide, fun s k n i o hk hn hi ho => ?_⟩
  have hx := exec_check_of_lens hk hn hi ho
  by_cases hl : LengthsPass k n i o
  · rw [if_pos (violationCauses_eq_zero_iff.mpr hl)] at hx
    exact ⟨_, hx, fun _ => ⟨rfl, frame_of_seq s _⟩, fun hn => absurd hl hn⟩
  · have hc := violationCauses_eq_zero_iff.not.mpr hl
    obtain ⟨hkey, hnonce, hbuf⟩ := getLsbD_violationCauses k n i o
    rw [if_neg hc] at hx
    exact ⟨_, hx, fun hp => absurd hp hl,
      fun _ => ⟨rfl, hc, hkey, hnonce, hbuf, internalCleared_clearInternal s, frame_raiseViolation hx⟩⟩

/-- Settles O30: the two sides of the branch set `SEQ` alone. -/
theorem bdoneBranches : Obligations.BdoneBranches := by
  refine ⟨by decide, fun d s p n hd hp hn => ⟨rfl, ?_⟩⟩
  have hx := exec_bdone_eq_next_iff.mpr ⟨hd, p, n, hp, hn, rfl⟩
  by_cases he : p = n
  · rw [if_pos he] at hx
    exact ⟨_, hx, fun _ => toNat_setWidth_target hd, fun hne => absurd he hne, frame_of_seq s _⟩
  · rw [if_neg he] at hx
    exact ⟨_, hx, fun e => absurd e he, fun _ => rfl, frame_of_seq s _⟩

/-- Settles O32: the sum modulo 2^32 by the value of `add32`. -/
theorem ctrincWraps : Obligations.CtrincWraps := by
  refine ⟨rfl, by decide, fun s c hc => ?_⟩
  have hx := exec_ctrinc_of_ctr hc
  exact ⟨_, _, hx, rfl, toNat_add32 c 1#32, rfl,
    frame_of_exec_keeping_out hx (by simp) fun p => by cases p <;> simp [Unchanged]⟩

/-- Settles O33: a target of at most 92 fits `SEQ`, which is all that `JMP` sets. -/
theorem jmpGoesToTarget : Obligations.JmpGoesToTarget :=
  ⟨by decide, fun d s hd =>
    ⟨rfl, _, exec_jmp_eq_next_iff.mpr ⟨hd, rfl⟩, toNat_setWidth_target hd, frame_of_seq s _⟩⟩

/-- Settles O34: by `finishRun`. -/
theorem endCompletesRun : Obligations.EndCompletesRun := by
  refine ⟨rfl, by decide, fun s => ?_⟩
  have hx : exec .endrun s = .next (finishRun s) := rfl
  exact ⟨_, hx, rfl, internalCleared_clearInternal s,
    frame_of_exec_keeping_out hx (by simp) fun p => by cases p <;> simp [Unchanged]⟩

end Sys2Proof.Machine
end

section
/-! `stream_fn` as a function (R151, R158, R162), and a whole run of the ROM (R167, R168): it is `BUSY` until its last step, which leaves
`stream_fn` in `OUT`. -/

namespace Sys2Proof.Machine

/-! ## `stream_fn` -/

section
variable (key : Vector Byte 32) (nonce : Vector Byte 12) (c : Word)

theorem length_streamFn (inp : List Byte) : (streamFn key nonce c inp).length = inp.length := List.length_mapIdx

theorem getElem_streamFn (inp : List Byte) (p : Nat) (hp : p < (streamFn key nonce c inp).length) :
    (streamFn key nonce c inp)[p] =
      xor8 (inp[p]'(length_streamFn key nonce c inp ▸ hp)) (keystreamByte key nonce c p) := List.getElem_mapIdx

/-- Each byte of the output depends on its place and on the input byte there, so the bytes of a beginning do not depend on the rest. -/
theorem streamFn_append (inp more : List Byte) : ∃ rest, streamFn key nonce c (inp ++ more) = streamFn key nonce c inp ++ rest :=
  ⟨_, List.mapIdx_append⟩

/-- The keystream does not depend on the input, so it cancels itself. -/
theorem streamFn_streamFn (inp : List Byte) : streamFn key nonce c (streamFn key nonce c inp) = inp := by
  refine List.ext_getElem (by simp only [length_streamFn]) fun p _ _ => ?_
  rw [getElem_streamFn, getElem_streamFn, xor8, xor8, BitVec.xor_assoc, BitVec.xor_self, BitVec.xor_zero]

end

/-! ## A run without host moves -/

section
variable {s t : State} {j k : Nat}

/-- The CORE's turn writes no input, whatever the program. -/
theorem inputsUnchanged_of_coreTurn (h : coreTurn s = .next t) : InputsUnchanged s t := by
  obtain ⟨_, rfl⟩ | ⟨_, _, _, _, _, hx⟩ := coreTurn_cases h
  · exact inputsUnchanged_refl t
  · exact inputsUnchanged_of_exec hx

theorem host_nil_of_run (hh : s.host = []) (h : run k s = .next t) : t.host = [] := by
  induction k generalizing s with
  | zero => cases h; exact hh
  | succ k ih =>
    rw [run_succ_eq, step_of_host_nil hh, andThen_eq_next_iff] at h
    obtain ⟨u, hu, h⟩ := h
    exact ih ((inputsUnchanged_of_coreTurn hu).host.trans hh) h

/-- A run that is `BUSY` has been so at each earlier step, since with no host move to come nothing leads back into a run. -/
theorem busy_of_run_add (hh : s.host = []) (h : run (j + k) s = .next t) (hb : t.status = .busy) :
    ∃ u, run j s = .next u ∧ u.status = .busy := by
  obtain ⟨u, hu, ht⟩ := run_cut h
  refine ⟨u, hu, by_contra fun hn => ?_⟩
  rw [run_of_notBusy (host_nil_of_run hh hu) hn] at ht
  cases ht
  exact hn hb

end

/-! ## The obligations -/

/-- Settles O35: byte by byte, the keystream byte cancels itself. -/
theorem streamFnSelfInverse : Obligations.StreamFnSelfInverse :=
  fun key nonce c inp => ⟨length_streamFn key nonce c inp, streamFn_streamFn key nonce c inp⟩

/-- Settles O36: the output of the shorter input begins that of the longer one, and has the shorter input's length. -/
theorem streamFnPrefix : Obligations.StreamFnPrefix := by
  intro key nonce c inp more
  obtain ⟨rest, h⟩ := streamFn_append key nonce c inp more
  rw [h, List.take_left' (length_streamFn key nonce c inp)]

/-- Settles O37: the result by `run_stream`; the state before the last step is still `BUSY`, and so is every earlier one. -/
theorem runComputesStreamFn : Obligations.RunComputesStreamFn := by
  intro s c0 n h0 hu
  obtain ⟨t, ht, hdone, hfault, hseq, hclear, hout, hkept, hinputs⟩ := run_stream h0 hu
  refine ⟨t, ht, hdone, hfault, hseq, hclear, hout, hkept, hinputs, fun j hj => ?_⟩
  obtain ⟨u, hrun, _, hstreamed, _⟩ := run_to_end h0 hu
  obtain ⟨k, hk⟩ : ∃ k, 2 + 91 * chunks n = j + k := Nat.exists_eq_add_of_le (by omega)
  exact busy_of_run_add hu.1 (hk ▸ hrun) hstreamed.busy

/-- Settles O48: it is the CORE's turn, and the CORE is not running. -/
theorem noStepOutsideRun : Obligations.NoStepOutsideRun :=
  fun _ hh hb => (step_of_host_nil hh).trans (coreTurn_of_notBusy hb)

end Sys2Proof.Machine
end

section
/-! The exception (R182 to R187): which instruction raises it, what a halted machine still does, and a run that it stops before any
output; and the host's writes, which it has in `IDLE` and `DONE` alone (R193, R205, R206). -/

namespace Sys2Proof.Machine

/-! ## The exception -/

/-- Settles O40: of the shapes of an instruction, only the start of a run and the violation write `FAULT`, and only the violation leads
into `HALT`. -/
theorem onlyCheckRaises : Obligations.OnlyCheckRaises := by
  intro i s t h
  cases exec_shape h with
  | same _ _ ht | regs _ _ _ _ _ _ _ ht | ctr _ _ _ ht | chunk _ _ _ _ _ _ _ _ _ ht =>
    subst ht
    exact ⟨fun hs hh => absurd hh hs, fun hf => absurd rfl hf⟩
  | start hi _ _ _ _ _ ht =>
    subst ht
    exact ⟨by simp, fun _ => .inr ⟨hi, rfl⟩⟩
  | halt hi => exact ⟨fun _ _ => hi, fun _ => .inl hi⟩
  | finish _ ht =>
    subst ht
    exact ⟨by simp, fun hf => absurd rfl hf⟩

/-- While `BUSY` and in `HALT` the host may not write (R193). -/
theorem not_hostMayWrite {s : State} (h : s.status = .busy ∨ s.status = .halt) : ¬ hostMayWrite s = true := by
  rcases h with h | h <;> simp [hostMayWrite, h]

/-- In `HALT` the reset is the one host move that changes the state: a command is ignored (R80), the host has no write, and the CORE
takes no step (R184, R186). -/
theorem hostTurn_of_halt {m : HostMove} {s t : State} (hs : s.status = .halt) (h : hostTurn m s = .next t) :
    (m = .reset ∧ t = resetCore s) ∨ (m ≠ .reset ∧ t = s) := by
  cases hostTurn_shape h with
  | core hm h =>
    rw [coreTurn_of_notBusy (by simp [hs])] at h
    cases h
    exact .inr ⟨by simp [hm], rfl⟩
  | command hm h =>
    have ignored : exec .stream s = .next s := if_pos (.inr hs)
    rw [ignored] at h
    cases h
    exact .inr ⟨by simp [hm], rfl⟩
  | kept hm ht =>
    refine .inr ⟨?_, ht⟩
    rintro rfl
    simp at hm
  | ctr0 _ _ hmay | len _ _ _ hmay | byte _ _ _ _ hmay => exact absurd hmay (not_hostMayWrite (.inr hs))
  | reset hm ht => exact .inl ⟨hm, ht⟩

/-- Settles O41: with no host move to come the halted CORE repeats its state, and of the host's moves only the reset changes it. -/
theorem haltEndsByResetOnly : Obligations.HaltEndsByResetOnly := by
  intro s t hs h
  cases hh : s.host with
  | nil =>
    rw [step_of_host_nil hh, coreTurn_of_notBusy (by simp [hs])] at h
    cases h
    exact .inr ⟨by simp, by rw [List.tail_nil, ← hh]⟩
  | cons m rest =>
    rw [step_of_host_cons hh] at h
    obtain ⟨rfl, rfl⟩ | ⟨hm, rfl⟩ := hostTurn_of_halt (s := { s with host := rest }) hs h
    · exact .inl ⟨rest, rfl, rfl, rfl⟩
    · exact .inr ⟨fun _ e => hm (List.cons.inj e).1, rfl⟩

/-- The violation touches no byte of any space (R184). -/
theorem byteAt_raiseViolation (c : BitVec 3) (s : State) (sp : Space) (a : Nat) :
    byteAt sp a (raiseViolation c s) = byteAt sp a s :=
  congrArg (memRead · a) (spaceMem_congr rfl rfl rfl rfl rfl sp)

/-- Settles O42: the first step is the `CHECK`, which raises the causes it finds; after it the CORE takes no step. -/
theorem violationStopsBeforeOutput : Obligations.ViolationStopsBeforeOutput := by
  intro s k n i o hu hb hq hk hn hi ho hl j hj
  have hc : violationCauses k n i o ≠ 0#3 := violationCauses_eq_zero_iff.not.mpr hl
  have hstep : step s = .next (raiseViolation (violationCauses k n i o) s) := by
    rw [step_rom_at 0 hu hb (by rw [hq]; rfl) rfl, exec_check_of_lens hk hn hi ho, if_neg hc]
  obtain ⟨j, rfl⟩ : ∃ j', j = j' + 1 := Nat.exists_eq_add_of_le' hj
  refine ⟨raiseViolation (violationCauses k n i o) s, ?_, rfl, hc, hq, byteAt_raiseViolation _ s⟩
  rw [run_succ hstep, run_of_notBusy (s := raiseViolation _ s) hu.1 (by simp)]

/-! ## The host's writes -/

theorem byteAt_setLen (sp sq : Space) (n a : Nat) (s : State) : byteAt sq a (setLen sp n s) = byteAt sq a s := by
  rw [byteAt, spaceMem_setLen, byteAt]

/-- A write of a length register writes no part that instructions write. -/
theorem unchanged_setLen (sp : Space) (n : Nat) (s : State) (p : Part) : Unchanged s (setLen sp n s) p := by
  cases p <;> simp [Unchanged, byteAt_setLen]

/-- A byte filled through one space is seen through every space that shares its bytes (R52). -/
theorem byteAt_setByte_of_shares (sp sq : Space) (a a' : Nat) (b : Byte) (s : State) :
    byteAt sq a' (setByte sp a b s) = if SharesBytes s sp sq ∧ a' = a then b else byteAt sq a' s := by
  simp only [byteAt_setByte, home_eq_iff]

/-- A fill of a byte writes, of the parts that instructions write, `OUT` alone. -/
theorem unchanged_setByte (sp : Space) (a : Nat) (b : Byte) (s : State) {p : Part} (hp : p ≠ .out) :
    Unchanged s (setByte sp a b s) p := by
  cases p with
  | out => exact absurd rfl hp
  | _ => simp [Unchanged]

/-- The list of the host's moves is none of the parts that instructions write. -/
theorem unchanged_of_host {s t : State} {rest : List HostMove} {p : Part} (h : Unchanged { s with host := rest } t p) :
    Unchanged s t p := by
  cases p <;> exact h

/-- Settles O45: each write by the one update it makes, and its refusal where the host may not write. -/
theorem hostWritesOutsideRuns : Obligations.HostWritesOutsideRuns := by
  have allowed : ∀ {s : State} (rest : List HostMove), s.status = .idle ∨ s.status = .done →
      hostMayWrite { s with host := rest } = true := fun _ hs => hostMayWrite_iff.mpr hs
  refine ⟨fun s rest v hh hs => ?_, fun s rest sp n hh hs => ?_, fun s rest sp a b hh hs hp => ?_, fun s rest m hh hs hm => ?_⟩
  · rw [step_of_host_cons hh, hostTurn, if_pos (allowed rest hs)]
  · have hx : step s = .next (setLen sp n { s with host := rest }) := by
      rw [step_of_host_cons hh, hostTurn, if_pos (allowed rest hs)]
    exact ⟨_, hx, by simp, by simp, fun sq => spaceLen_setLen sp sq n _, fun sq a => byteAt_setLen sp sq n a _, by simp, by simp,
      fun p => unchanged_of_host (unchanged_setLen sp n _ p)⟩
  · have hx : step s = .next (setByte sp a b { s with host := rest }) := by
      rw [step_of_host_cons hh, hostTurn, if_pos (allowed rest hs)]
      exact hostFill_eq_next_iff.mpr ⟨hp, rfl⟩
    exact ⟨_, hx, by simp, by simp, fun sq => spaceLen_setByte sp sq a b _, fun sq a' => byteAt_setByte_of_shares sp sq a a' b _,
      by simp, by simp, fun p hout => unchanged_of_host (unchanged_setByte sp a b _ hout)⟩
  · have hw : ¬ hostMayWrite { s with host := rest } = true := not_hostMayWrite hs
    obtain ⟨_, rfl⟩ | ⟨_, _, rfl⟩ | ⟨_, _, _, rfl⟩ := hm <;> rw [step_of_host_cons hh, hostTurn, if_neg hw]

end Sys2Proof.Machine
end

section
/-! The host's reset (R200): what it clears, and what belongs to the host and is kept (R37). -/

namespace Sys2Proof.Machine

/-! ## The reset -/

/-- The reset takes the value of every internal location (R33, R37). -/
theorem internalCleared_resetCore (s : State) : InternalCleared (resetCore s) := by
  simp [InternalCleared, State.reset]

/-- The reset takes the value of every length register (R37). -/
theorem spaceLen_resetCore (sp : Space) (s : State) : spaceLen sp (resetCore s) = none := by
  cases sp <;> rfl

/-- The reset touches no byte of any space (R200). -/
theorem byteAt_resetCore (sp : Space) (a : Nat) (s : State) : byteAt sp a (resetCore s) = byteAt sp a s :=
  congrArg (memRead · a) (spaceMem_congr rfl rfl rfl rfl rfl sp)

/-- Settles O47: the move is made in any `STATUS`, and its one update is `resetCore`. -/
theorem resetRestoresState : Obligations.ResetRestoresState := by
  intro s rest hh
  have hstep : step s = .next (resetCore { s with host := rest }) := by rw [step_of_host_cons hh, hostTurn]
  exact ⟨_, hstep, rfl, rfl, rfl, internalCleared_resetCore _, rfl, fun sp => spaceLen_resetCore sp _,
    fun sp a => byteAt_resetCore sp a { s with host := rest }, rfl, rfl⟩

end Sys2Proof.Machine
end
